-- ==== Sys2Proof/Word.lean ====
section
/-! DEFINITION. The widths of the machine (spec/00_scope.md R5, R6): bytes, 16-bit words and addresses,
nibbles, and the two kinds of number 0 to 15 that name a register or a key. Every value is unsigned (R6). -/

namespace Sys2Proof

/-- An 8-bit value: a data register, a timer, a memory cell, the immediate NN (R5 `V_WIDTH`, `TIMER_WIDTH`). -/
abbrev Byte := BitVec 8

/-- A 16-bit instruction word (R70). -/
abbrev Word := BitVec 16

/-- A 16-bit address as PC, I and a stack entry hold it (R5 `PC_WIDTH`, `I_WIDTH`, `STACK_ENTRY_WIDTH`). -/
abbrev Addr := BitVec 16

/-- A 12-bit address field NNN of an instruction word (R72). -/
abbrev Addr12 := BitVec 12

/-- A 4-bit field of an instruction word (R6, R71). -/
abbrev Nibble := BitVec 4

/-- The number of a data register V0 to VF (R21). -/
abbrev Reg := Fin 16

/-- A key code 0x0 to 0xF (R35). -/
abbrev Key := Fin 16

end Sys2Proof
end

