-- ==== Sys2Proof/Machine/Flags.lean ====
section
/-! DEFINITION. Every flag computation of the spec: the values that go to VF (spec/10_state.md R22). The collision flag of DXYN is
`Canvas.hit` (Machine/Ops.lean). -/

namespace Sys2Proof.Machine

/-- A flag as a byte: 1 or 0. -/
def flagByte (b : Bool) : Byte := if b then 1 else 0

/-- Carry of 8XY4: the unwrapped sum exceeds 255 (spec/42_alu.md R148). -/
def carryFlag (a b : Byte) : Bool := decide (a.toNat + b.toNat > 255)

/-- No borrow of `a − b`: `a ≥ b` (R149, R151). -/
def noBorrowFlag (a b : Byte) : Bool := decide (a.toNat ≥ b.toNat)

/-- The bit shifted out to the right: bit 0 of the original value (R150). -/
def shiftedOutRight (a : Byte) : Bool := a.getLsbD 0

/-- The bit shifted out to the left: bit 7 of the original value (R152). -/
def shiftedOutLeft (a : Byte) : Bool := a.getLsbD 7

end Sys2Proof.Machine
end

