-- ==== Sys2Proof/Syntax.lean ====
section
/-! DEFINITION. The instructions: one constructor per row of the opcode map of spec/30_encoding.md R80, in its order.
A field that the spec says an instruction ignores (R73, R75, R79) is kept as raw bits, so that an
instruction still stands for exactly one 16-bit word (R80: every word decodes to exactly one row). -/

namespace Sys2Proof

/-- The 38 rows of R80. `x`, `y` name registers, `nn` is an immediate byte, `nnn` a 12-bit address. -/
inductive Instr where
  /-- row 1, 0nE0: clear screen (R170); `n` is not examined (R75) -/
  | cls (n : Nibble)
  /-- row 2, 0nEE: return from subroutine (R120); `n` is not examined (R75) -/
  | ret (n : Nibble)
  /-- row 3, 1NNN: jump (R121) -/
  | jp (nnn : Addr12)
  /-- row 4, 2NNN: call subroutine (R122) -/
  | call (nnn : Addr12)
  /-- row 5, 3XNN: skip if V[X] = NN (R124) -/
  | seImm (x : Reg) (nn : Byte)
  /-- row 6, 4XNN: skip if V[X] ≠ NN (R125) -/
  | sneImm (x : Reg) (nn : Byte)
  /-- row 7, 5XYN: skip if V[X] = V[Y] (R126); `n` is ignored (R79) -/
  | seReg (x y : Reg) (n : Nibble)
  /-- row 8, 6XNN: load immediate (R142) -/
  | ldImm (x : Reg) (nn : Byte)
  /-- row 9, 7XNN: add immediate (R143) -/
  | addImm (x : Reg) (nn : Byte)
  /-- row 10, 8XY0: move (R144) -/
  | ldReg (x y : Reg)
  /-- row 11, 8XY1: bitwise OR (R145) -/
  | orReg (x y : Reg)
  /-- row 12, 8XY2: bitwise AND (R146) -/
  | andReg (x y : Reg)
  /-- row 13, 8XY3: bitwise XOR (R147) -/
  | xorReg (x y : Reg)
  /-- row 14, 8XY4: add with carry to VF (R148) -/
  | addReg (x y : Reg)
  /-- row 15, 8XY5: V[X] − V[Y], no-borrow to VF (R149) -/
  | subReg (x y : Reg)
  /-- row 16, 8XY6: shift right, bit 0 to VF (R150); `y` is ignored -/
  | shr (x : Reg) (y : Nibble)
  /-- row 17, 8XY7: V[Y] − V[X], no-borrow to VF (R151) -/
  | subnReg (x y : Reg)
  /-- row 18, 8XYE: shift left, bit 7 to VF (R152); `y` is ignored -/
  | shl (x : Reg) (y : Nibble)
  /-- row 19, 9XYN: skip if V[X] ≠ V[Y] (R127); `n` is ignored (R79) -/
  | sneReg (x y : Reg) (n : Nibble)
  /-- row 20, ANNN: load index (R200) -/
  | ldI (nnn : Addr12)
  /-- row 21, BNNN: jump to NNN + V0 (R123) -/
  | jpV0 (nnn : Addr12)
  /-- row 22, CXNN: random byte AND mask (R153) -/
  | rnd (x : Reg) (nn : Byte)
  /-- row 23, DXYN: draw a sprite of `n` rows, collision to VF (R171) -/
  | drw (x y : Reg) (n : Fin 16)
  /-- row 24, EX9E: skip if key V[X] pressed (R181) -/
  | skp (x : Reg)
  /-- row 25, EXA1: skip if key V[X] not pressed (R182) -/
  | sknp (x : Reg)
  /-- row 26, FX07: read delay timer (R190) -/
  | ldVxDt (x : Reg)
  /-- row 27, FX0A: wait for key (R183) -/
  | ldVxK (x : Reg)
  /-- row 28, FX15: set delay timer (R191) -/
  | ldDtVx (x : Reg)
  /-- row 29, FX18: set sound timer (R192) -/
  | ldStVx (x : Reg)
  /-- row 30, FX1E: index add (R201) -/
  | addI (x : Reg)
  /-- row 31, FX29: font glyph address (R202) -/
  | ldF (x : Reg)
  /-- row 32, FX33: BCD to memory (R203) -/
  | ldB (x : Reg)
  /-- row 33, FX55: dump V0 to V(X − 1) to memory at I (R204) -/
  | ldMemVx (x : Reg)
  /-- row 34, FX65: load V0 to VX from memory at I (R205) -/
  | ldVxMem (x : Reg)
  /-- row 35, 0NNN (rest): SYS, ignored (R111) -/
  | sys (nnn : Addr12)
  /-- row 36, 8XYN (rest): ignored word (R110) -/
  | ignored8 (x y n : Nibble)
  /-- row 37, EXNN (rest): ignored word (R110) -/
  | ignoredE (x : Nibble) (nn : Byte)
  /-- row 38, FXNN (rest): ignored word (R110) -/
  | ignoredF (x : Nibble) (nn : Byte)
  deriving DecidableEq, Repr

end Sys2Proof
end

