-- ==== Sys2Proof/WellFormed.lean ====
section
/-! DEFINITION. Which terms of `Instr` stand for a word. Every field is already of the width the encoding gives it;
the one thing left to check is that a catch-all row (rows 35 to 38 of spec/30_encoding.md R80) does not
spell a word that an earlier row takes. -/

namespace Sys2Proof

/-- The low bytes of family 0x0 that rows 1 and 2 take (R75). -/
def family0Bytes : List Byte := [0xE0#8, 0xEE#8]

/-- The low nibbles of family 0x8 that rows 10 to 18 take (R76). -/
def family8Nibbles : List Nibble := [0x0#4, 0x1#4, 0x2#4, 0x3#4, 0x4#4, 0x5#4, 0x6#4, 0x7#4, 0xE#4]

/-- The low bytes of family 0xE that rows 24 and 25 take (R77). -/
def familyEBytes : List Byte := [0x9E#8, 0xA1#8]

/-- The low bytes of family 0xF that rows 26 to 34 take (R78). -/
def familyFBytes : List Byte := [0x07#8, 0x0A#8, 0x15#8, 0x18#8, 0x1E#8, 0x29#8, 0x33#8, 0x55#8, 0x65#8]

/-- The instruction stands for a word of its own row. -/
def Instr.wellFormed : Instr → Bool
  | .sys nnn => !family0Bytes.contains (nnn.extractLsb' 0 8)
  | .ignored8 _ _ n => !family8Nibbles.contains n
  | .ignoredE _ nn => !familyEBytes.contains nn
  | .ignoredF _ nn => !familyFBytes.contains nn
  | .cls _ | .ret _ | .jp _ | .call _ | .seImm _ _ | .sneImm _ _ | .seReg _ _ _ | .ldImm _ _ | .addImm _ _
  | .ldReg _ _ | .orReg _ _ | .andReg _ _ | .xorReg _ _ | .addReg _ _ | .subReg _ _ | .shr _ _ | .subnReg _ _
  | .shl _ _ | .sneReg _ _ _ | .ldI _ | .jpV0 _ | .rnd _ _ | .drw _ _ _ | .skp _ | .sknp _ | .ldVxDt _
  | .ldVxK _ | .ldDtVx _ | .ldStVx _ | .addI _ | .ldF _ | .ldB _ | .ldMemVx _ | .ldVxMem _ => true

end Sys2Proof
end

