-- ==== Sys2Proof/Decode.lean ====
section
/-! DEFINITION. Decoding (spec/30_encoding.md R70 to R80), the encoder, and the opcode map of R80 as data.
Decoding a word is total (R83: every word has a meaning or is ignored); only a byte string too short to hold a
word is rejected. -/

namespace Sys2Proof

/-! ## Fields (R72) -/

/-- The register or count a nibble names. -/
def regOf (b : Nibble) : Fin 16 := ⟨b.toNat, b.isLt⟩

/-- The nibble that names a register or count. -/
def regBits (r : Fin 16) : Nibble := BitVec.ofNat 4 r.val

/-- The family `w[15:12]`. -/
def fieldF (w : Word) : Nibble := w.extractLsb' 12 4

/-- `X = w[11:8]`. -/
def fieldX (w : Word) : Nibble := w.extractLsb' 8 4

/-- `Y = w[7:4]`. -/
def fieldY (w : Word) : Nibble := w.extractLsb' 4 4

/-- `N = w[3:0]`. -/
def fieldN (w : Word) : Nibble := w.extractLsb' 0 4

/-- `NN = w[7:0]`. -/
def fieldNN (w : Word) : Byte := w.extractLsb' 0 8

/-- `NNN = w[11:0]`. -/
def fieldNNN (w : Word) : Addr12 := w.extractLsb' 0 12

/-! ## The decoder (R74 to R79) -/

/-- Family 0x0, by the low byte (R75). -/
def decode0 (w : Word) : Instr :=
  if fieldNN w = 0xE0#8 then .cls (fieldX w)
  else if fieldNN w = 0xEE#8 then .ret (fieldX w)
  else .sys (fieldNNN w)

/-- Family 0x8, by the low nibble (R76). -/
def decode8 (w : Word) : Instr :=
  let x := regOf (fieldX w)
  let y := regOf (fieldY w)
  match (fieldN w).toNat with
  | 0x0 => .ldReg x y
  | 0x1 => .orReg x y
  | 0x2 => .andReg x y
  | 0x3 => .xorReg x y
  | 0x4 => .addReg x y
  | 0x5 => .subReg x y
  | 0x6 => .shr x (fieldY w)
  | 0x7 => .subnReg x y
  | 0xE => .shl x (fieldY w)
  | _ => .ignored8 (fieldX w) (fieldY w) (fieldN w)

/-- Family 0xE, by the low byte (R77). -/
def decodeE (w : Word) : Instr :=
  match (fieldNN w).toNat with
  | 0x9E => .skp (regOf (fieldX w))
  | 0xA1 => .sknp (regOf (fieldX w))
  | _ => .ignoredE (fieldX w) (fieldNN w)

/-- Family 0xF, by the low byte (R78). -/
def decodeF (w : Word) : Instr :=
  let x := regOf (fieldX w)
  match (fieldNN w).toNat with
  | 0x07 => .ldVxDt x
  | 0x0A => .ldVxK x
  | 0x15 => .ldDtVx x
  | 0x18 => .ldStVx x
  | 0x1E => .addI x
  | 0x29 => .ldF x
  | 0x33 => .ldB x
  | 0x55 => .ldMemVx x
  | 0x65 => .ldVxMem x
  | _ => .ignoredF (fieldX w) (fieldNN w)

/-- The instruction a word stands for: dispatch on the top four bits, then within families 0x0, 0x8, 0xE and 0xF
on the low byte or nibble (R74). Families 0x5 and 0x9 do not examine N (R79). -/
def decode (w : Word) : Instr :=
  let x := regOf (fieldX w)
  let y := regOf (fieldY w)
  match (fieldF w).toNat with
  | 0x0 => decode0 w
  | 0x1 => .jp (fieldNNN w)
  | 0x2 => .call (fieldNNN w)
  | 0x3 => .seImm x (fieldNN w)
  | 0x4 => .sneImm x (fieldNN w)
  | 0x5 => .seReg x y (fieldN w)
  | 0x6 => .ldImm x (fieldNN w)
  | 0x7 => .addImm x (fieldNN w)
  | 0x8 => decode8 w
  | 0x9 => .sneReg x y (fieldN w)
  | 0xA => .ldI (fieldNNN w)
  | 0xB => .jpV0 (fieldNNN w)
  | 0xC => .rnd x (fieldNN w)
  | 0xD => .drw x y (regOf (fieldN w))
  | 0xE => decodeE w
  | _ => decodeF w

/-- Why a byte string is not an instruction. -/
inductive DecodeError where
  /-- fewer than the two bytes every instruction has (R70) -/
  | truncated
  deriving DecidableEq, Repr

/-- The word of two bytes, the one at the lower address more significant (R53). -/
def wordOfBytes (hi lo : Byte) : Word := hi ++ lo

/-- The byte of a word at the lower address (R53). -/
def highByte (w : Word) : Byte := w.extractLsb' 8 8

/-- The byte of a word at the higher address (R53). -/
def lowByte (w : Word) : Byte := w.extractLsb' 0 8

/-- Decoding of a byte string: consumes exactly two bytes (R70) and answers the instruction with the rest. -/
def decodeBytes : List Byte → Except DecodeError (Instr × List Byte)
  | hi :: lo :: rest => .ok (decode (wordOfBytes hi lo), rest)
  | [_] => .error .truncated
  | [] => .error .truncated

/-- The word of the opcode table's bits: bit 0 is the table's bit 0, and every bit from `nbits` up is zero. -/
def tableWord (nbits w : Nat) : Word := BitVec.ofNat 16 (w % 2 ^ nbits)

/-- The instruction the decoder reads from an instruction whose bits are `w`, numbered as the opcode table
numbers them: the word is laid out in its two bytes, high byte first, and given to `decodeBytes`. -/
def decodeTableWord (nbits w : Nat) : Option Instr :=
  match decodeBytes [highByte (tableWord nbits w), lowByte (tableWord nbits w)] with
  | .ok (i, _) => some i
  | .error _ => none

/-! ## The encoder -/

/-- The words 0XNN to FXNN of a family, a register and a byte. -/
def wordXNN (f : Nibble) (x : Nibble) (nn : Byte) : Word := f ++ x ++ nn

/-- The words of a family and three nibbles. -/
def wordXYN (f x y n : Nibble) : Word := f ++ x ++ y ++ n

/-- The words of a family and a 12-bit address. -/
def wordNNN (f : Nibble) (nnn : Addr12) : Word := f ++ nnn

/-- The word an instruction stands for, from the pattern column of R80. -/
def encode : Instr → Word
  | .cls n => wordXNN 0x0#4 n 0xE0#8
  | .ret n => wordXNN 0x0#4 n 0xEE#8
  | .jp nnn => wordNNN 0x1#4 nnn
  | .call nnn => wordNNN 0x2#4 nnn
  | .seImm x nn => wordXNN 0x3#4 (regBits x) nn
  | .sneImm x nn => wordXNN 0x4#4 (regBits x) nn
  | .seReg x y n => wordXYN 0x5#4 (regBits x) (regBits y) n
  | .ldImm x nn => wordXNN 0x6#4 (regBits x) nn
  | .addImm x nn => wordXNN 0x7#4 (regBits x) nn
  | .ldReg x y => wordXYN 0x8#4 (regBits x) (regBits y) 0x0#4
  | .orReg x y => wordXYN 0x8#4 (regBits x) (regBits y) 0x1#4
  | .andReg x y => wordXYN 0x8#4 (regBits x) (regBits y) 0x2#4
  | .xorReg x y => wordXYN 0x8#4 (regBits x) (regBits y) 0x3#4
  | .addReg x y => wordXYN 0x8#4 (regBits x) (regBits y) 0x4#4
  | .subReg x y => wordXYN 0x8#4 (regBits x) (regBits y) 0x5#4
  | .shr x y => wordXYN 0x8#4 (regBits x) y 0x6#4
  | .subnReg x y => wordXYN 0x8#4 (regBits x) (regBits y) 0x7#4
  | .shl x y => wordXYN 0x8#4 (regBits x) y 0xE#4
  | .sneReg x y n => wordXYN 0x9#4 (regBits x) (regBits y) n
  | .ldI nnn => wordNNN 0xA#4 nnn
  | .jpV0 nnn => wordNNN 0xB#4 nnn
  | .rnd x nn => wordXNN 0xC#4 (regBits x) nn
  | .drw x y n => wordXYN 0xD#4 (regBits x) (regBits y) (regBits n)
  | .skp x => wordXNN 0xE#4 (regBits x) 0x9E#8
  | .sknp x => wordXNN 0xE#4 (regBits x) 0xA1#8
  | .ldVxDt x => wordXNN 0xF#4 (regBits x) 0x07#8
  | .ldVxK x => wordXNN 0xF#4 (regBits x) 0x0A#8
  | .ldDtVx x => wordXNN 0xF#4 (regBits x) 0x15#8
  | .ldStVx x => wordXNN 0xF#4 (regBits x) 0x18#8
  | .addI x => wordXNN 0xF#4 (regBits x) 0x1E#8
  | .ldF x => wordXNN 0xF#4 (regBits x) 0x29#8
  | .ldB x => wordXNN 0xF#4 (regBits x) 0x33#8
  | .ldMemVx x => wordXNN 0xF#4 (regBits x) 0x55#8
  | .ldVxMem x => wordXNN 0xF#4 (regBits x) 0x65#8
  | .sys nnn => wordNNN 0x0#4 nnn
  | .ignored8 x y n => wordXYN 0x8#4 x y n
  | .ignoredE x nn => wordXNN 0xE#4 x nn
  | .ignoredF x nn => wordXNN 0xF#4 x nn

/-! ## The opcode map of R80 as data -/

/-- One row of R80: its number, match and mask columns. -/
structure OpcodeRow where
  number : Nat
  matchBits : Word
  mask : Word
  deriving DecidableEq, Repr

/-- Rows 1 to 9 of R80. -/
def opcodeRows1 : List OpcodeRow :=
  [⟨1, 0x00E0#16, 0xF0FF#16⟩, ⟨2, 0x00EE#16, 0xF0FF#16⟩, ⟨3, 0x1000#16, 0xF000#16⟩, ⟨4, 0x2000#16, 0xF000#16⟩,
   ⟨5, 0x3000#16, 0xF000#16⟩, ⟨6, 0x4000#16, 0xF000#16⟩, ⟨7, 0x5000#16, 0xF000#16⟩, ⟨8, 0x6000#16, 0xF000#16⟩,
   ⟨9, 0x7000#16, 0xF000#16⟩]

/-- Rows 10 to 18 of R80. -/
def opcodeRows2 : List OpcodeRow :=
  [⟨10, 0x8000#16, 0xF00F#16⟩, ⟨11, 0x8001#16, 0xF00F#16⟩, ⟨12, 0x8002#16, 0xF00F#16⟩, ⟨13, 0x8003#16, 0xF00F#16⟩,
   ⟨14, 0x8004#16, 0xF00F#16⟩, ⟨15, 0x8005#16, 0xF00F#16⟩, ⟨16, 0x8006#16, 0xF00F#16⟩, ⟨17, 0x8007#16, 0xF00F#16⟩,
   ⟨18, 0x800E#16, 0xF00F#16⟩]

/-- Rows 19 to 28 of R80. -/
def opcodeRows3 : List OpcodeRow :=
  [⟨19, 0x9000#16, 0xF000#16⟩, ⟨20, 0xA000#16, 0xF000#16⟩, ⟨21, 0xB000#16, 0xF000#16⟩, ⟨22, 0xC000#16, 0xF000#16⟩,
   ⟨23, 0xD000#16, 0xF000#16⟩, ⟨24, 0xE09E#16, 0xF0FF#16⟩, ⟨25, 0xE0A1#16, 0xF0FF#16⟩, ⟨26, 0xF007#16, 0xF0FF#16⟩,
   ⟨27, 0xF00A#16, 0xF0FF#16⟩, ⟨28, 0xF015#16, 0xF0FF#16⟩]

/-- Rows 29 to 38 of R80. -/
def opcodeRows4 : List OpcodeRow :=
  [⟨29, 0xF018#16, 0xF0FF#16⟩, ⟨30, 0xF01E#16, 0xF0FF#16⟩, ⟨31, 0xF029#16, 0xF0FF#16⟩, ⟨32, 0xF033#16, 0xF0FF#16⟩,
   ⟨33, 0xF055#16, 0xF0FF#16⟩, ⟨34, 0xF065#16, 0xF0FF#16⟩, ⟨35, 0x0000#16, 0xF000#16⟩, ⟨36, 0x8000#16, 0xF000#16⟩,
   ⟨37, 0xE000#16, 0xF000#16⟩, ⟨38, 0xF000#16, 0xF000#16⟩]

/-- The 38 rows of R80, in its order. -/
def opcodeMap : List OpcodeRow := opcodeRows1 ++ opcodeRows2 ++ opcodeRows3 ++ opcodeRows4

/-- The first row of R80, in its order, whose `(w AND mask) = match`. -/
def firstRow (w : Word) : Option Nat :=
  (opcodeMap.find? fun r => w &&& r.mask == r.matchBits).map OpcodeRow.number

/-- The row number of R80 that an instruction belongs to. -/
def Instr.row : Instr → Nat
  | .cls _ => 1
  | .ret _ => 2
  | .jp _ => 3
  | .call _ => 4
  | .seImm _ _ => 5
  | .sneImm _ _ => 6
  | .seReg _ _ _ => 7
  | .ldImm _ _ => 8
  | .addImm _ _ => 9
  | .ldReg _ _ => 10
  | .orReg _ _ => 11
  | .andReg _ _ => 12
  | .xorReg _ _ => 13
  | .addReg _ _ => 14
  | .subReg _ _ => 15
  | .shr _ _ => 16
  | .subnReg _ _ => 17
  | .shl _ _ => 18
  | .sneReg _ _ _ => 19
  | .ldI _ => 20
  | .jpV0 _ => 21
  | .rnd _ _ => 22
  | .drw _ _ _ => 23
  | .skp _ => 24
  | .sknp _ => 25
  | .ldVxDt _ => 26
  | .ldVxK _ => 27
  | .ldDtVx _ => 28
  | .ldStVx _ => 29
  | .addI _ => 30
  | .ldF _ => 31
  | .ldB _ => 32
  | .ldMemVx _ => 33
  | .ldVxMem _ => 34
  | .sys _ => 35
  | .ignored8 _ _ _ => 36
  | .ignoredE _ _ => 37
  | .ignoredF _ _ => 38

end Sys2Proof
end

