-- ==== Sys2Proof/Machine/Font.lean ====
section
/-! DEFINITION. The parameter FONT (spec/10_state.md R46) and its default, and the reset content of memory at that default
(spec/20_memory.md R57). FONT is an argument of what it enters: `State.resetWith` and `load` (Machine/Load.lean). The
default's glyph bytes are marked by the spec as general knowledge (PRESUMED, assumption 2). -/

namespace Sys2Proof.Machine

/-- A value of the parameter FONT: 80 bytes, glyph d at 5 × d (R46). -/
abbrev Font := Vector Byte 80

/-- Glyphs 0 to 7 of R46, five bytes each. -/
def fontLow : List Byte :=
  [0xF0, 0x90, 0x90, 0x90, 0xF0] ++ [0x20, 0x60, 0x20, 0x20, 0x70] ++
  [0xF0, 0x10, 0xF0, 0x80, 0xF0] ++ [0xF0, 0x10, 0xF0, 0x10, 0xF0] ++
  [0x90, 0x90, 0xF0, 0x10, 0x10] ++ [0xF0, 0x80, 0xF0, 0x10, 0xF0] ++
  [0xF0, 0x80, 0xF0, 0x90, 0xF0] ++ [0xF0, 0x10, 0x20, 0x40, 0x40]

/-- Glyphs 8 to F of R46, five bytes each. -/
def fontHigh : List Byte :=
  [0xF0, 0x90, 0xF0, 0x90, 0xF0] ++ [0xF0, 0x90, 0xF0, 0x10, 0xF0] ++
  [0xF0, 0x90, 0xF0, 0x90, 0x90] ++ [0xE0, 0x90, 0xE0, 0x90, 0xE0] ++
  [0xF0, 0x80, 0x80, 0x80, 0xF0] ++ [0xE0, 0x90, 0x90, 0x90, 0xE0] ++
  [0xF0, 0x80, 0xF0, 0x80, 0xF0] ++ [0xF0, 0x80, 0xF0, 0x80, 0x80]

/-- The 80 bytes of the default FONT (R46). -/
def defaultFontBytes : List Byte := fontLow ++ fontHigh

/-- The default value of FONT (R46). -/
def defaultFont : Font := ⟨defaultFontBytes.toArray, rfl⟩

/-- The reset content of a cell at the default FONT: the font at 0x000 to 0x04F, 0 elsewhere (R41, R57). It is what an
address that memory does not list reads as; another FONT is held as listed cells (assumption 6). -/
def resetByte (a : Nat) : Byte := defaultFontBytes.getD a 0

end Sys2Proof.Machine
end

