-- ==== Sys2Proof/Config.lean ====
section
/-! DEFINITION. What stands outside the core: the input record of a step and its free value.
Of the other parameters of spec/00_scope.md R5, FONT is an argument of `State.resetWith` and `load` with a default
(Machine/Font.lean, Machine/Load.lean); the rest are fixed numbers and stand where they are used. -/

namespace Sys2Proof

/-- The input record `in` of one step (spec/40_pipeline.md R101). The core places no law on any field. -/
structure StepIn where
  /-- `in.keys`: the keypad snapshot, bit k = key k pressed. -/
  keys : BitVec 16
  /-- `in.key_event`: none, or the code of a key-down edge reported during this step (at most one, R184). -/
  keyEvent : Option Key
  /-- `in.rand`: a random byte. -/
  rand : Byte
  /-- `in.oor_pressed`: the answer for a key code above 15 (R180). -/
  oorPressed : Bool
  /-- `in.dt_due`: at least 1/60 s has passed since DT last decremented (R240). -/
  dtDue : Bool
  /-- `in.st_due`: the same for ST (R240). -/
  stDue : Bool
  deriving DecidableEq, Repr, Inhabited

/-- FREE VALUE (assumption 1): the input record of the n-th step for which `State.inputs` lists none.
It has no body: R101 says every input is a draw under no law, so nothing can be proved of it. -/
opaque Config.freeInput : Nat → StepIn

end Sys2Proof
end

