-- ==== Sys2Proof/Machine/State.lean ====
section
/-! DEFINITION. The state of the machine (spec/10_state.md R20), its reset values (R41), and the two reasons types. -/

namespace Sys2Proof.Machine

/-- The two synchronous faults of spec/60_exceptions.md R220. The model TAKES them as the spec says (R222): the
outcome is a next state with HALTED = 1 and the record in FAULT, so no meaning ever ends in `Outcome.fault`. -/
inductive Fault where
  /-- raised by CALL (2NNN) with SP = 15, 16 return addresses on the stack (R221). Safe: the spec's own effect. -/
  | stackOverflow
  /-- raised by RET (00EE) with SP = EMPTY (R223). Safe: the spec's own effect. -/
  | stackUnderflow
  deriving DecidableEq, Repr

/-- Why the model gives an instruction no meaning. -/
inductive Refusal where
  /-- an arm of `exec` that has no meaning yet. Raised by none: every row of the opcode table is modelled. Safe. -/
  | notModelled (mnemonic : String)
  deriving DecidableEq, Repr

/-- The record of FAULT (R37): code, PC of the faulting instruction, its word. -/
structure FaultRecord where
  code : Byte
  pc : Addr
  word : Word
  deriving DecidableEq, Repr

/-- Memory (spec/20_memory.md R50): the cells that differ from the reset content at the default FONT, addresses strictly rising.
What an unlisted address reads as is `resetByte` (Machine/Font.lean). -/
abbrev Memory := List Host.Cell

/-- The framebuffer as its port shows it (R34, R252): bit `64 × y + x` is the pixel at column x, row y. -/
abbrev Framebuffer := BitVec 2048

/-- Everything the spec gives the machine (R20, R248), and the input side of the model (assumption 1). -/
structure State where
  /-- V0 to VF (R21) -/
  v : Vector Byte 16
  /-- the index register I (R28) -/
  i : Addr
  /-- the program counter (R25) -/
  pc : Addr
  /-- the stack pointer, `none` is EMPTY, the value −1 (R29) -/
  sp : Option (Fin 16)
  /-- STACK[0] to STACK[15] (R30) -/
  stack : Vector Addr 16
  /-- the delay timer (R32) -/
  dt : Byte
  /-- the sound timer (R33) -/
  st : Byte
  /-- MEM[0x000..0xFFF] (R50) -/
  mem : Memory
  /-- FB[y][x] (R34) -/
  fb : Framebuffer
  /-- the keypad snapshot KEYS, bit k is KEYS[k] (R35) -/
  keys : BitVec 16
  /-- AWAIT: none, or the register a suspended FX0A will write (R36) -/
  await : Option Reg
  /-- HALTED (R37) -/
  halted : Bool
  /-- FAULT (R37) -/
  fault : Option FaultRecord
  /-- what the `load_error` port shows: the last load was rejected as TooLarge (R248, R262) -/
  loadError : Bool
  /-- MODEL'S OWN: the input record the running step has sampled (R101; assumption 1) -/
  inp : StepIn
  /-- MODEL'S OWN: the input records put up for the coming steps, oldest first (R101; assumption 1) -/
  inputs : List StepIn
  /-- MODEL'S OWN: how many records were taken from the free value `Config.freeInput` (assumption 1) -/
  draws : Nat
  deriving DecidableEq, Repr

/-- An input record with every input 0 or none. -/
def quietInput : StepIn := ⟨0, none, 0, false, false, false⟩

/-- The machine right after reset (R41, R260; `loadError` by R260 and R261), with FONT at its default; for every FONT it
is `State.resetWith` (Machine/Load.lean). The last three fields are the model's own (assumption 1): no record is listed, and
`inp` is sampled anew before anything reads it. -/
def State.reset : State where
  v := Vector.replicate 16 0
  i := 0
  pc := 0x200
  sp := none
  stack := Vector.replicate 16 0
  dt := 0
  st := 0
  mem := []
  fb := 0
  keys := 0
  await := none
  halted := false
  fault := none
  loadError := false
  inp := quietInput
  inputs := []
  draws := 0

end Sys2Proof.Machine
end

