-- ==== Sys2Proof/Machine/Ops.lean ====
section
/-! DEFINITION. The named operations over memory, registers, stack, framebuffer, timers and inputs, and the three ways a
handler ends (spec/40_pipeline.md R106): done, fault, wait. -/

namespace Sys2Proof.Machine

/-! ## Memory (spec/20_memory.md) -/

/-- The cell index of an address: `a mod 4096` (R52). -/
def effAddr (a : Nat) : Nat := a % 4096

/-- The byte in cell `a`. -/
def Memory.get : Memory → Nat → Byte
  | [], a => resetByte a
  | (k, b) :: rest, a => if k = a then b else Memory.get rest a

/-- Memory with byte `b` in cell `a`, in canonical form: an entry that would equal the reset content is not listed. -/
def Memory.put : Memory → Nat → Byte → Memory
  | [], a, b => if b = resetByte a then [] else [(a, b)]
  | (k, c) :: rest, a, b =>
    if k < a then (k, c) :: Memory.put rest a b
    else if k = a then (if b = resetByte a then rest else (a, b) :: rest)
    else (if b = resetByte a then (k, c) :: rest else (a, b) :: (k, c) :: rest)

/-- `MemRead(a, 1)` (R52). -/
def Memory.read (m : Memory) (a : Nat) : Byte := Memory.get m (effAddr a)

/-- `MemWrite(a, 1, v)` (R52). -/
def Memory.write (m : Memory) (a : Nat) (b : Byte) : Memory := Memory.put m (effAddr a) b

/-- The canonical form, for entries from address `lo` up. -/
def Memory.wfFrom : Nat → Memory → Bool
  | _, [] => true
  | lo, (k, b) :: rest => decide (lo ≤ k) && decide (k < 4096) && b != resetByte k && Memory.wfFrom (k + 1) rest

/-- The canonical form of memory: addresses strictly rising and below 4096, no entry equal to the reset content. -/
def Memory.wf (m : Memory) : Bool := Memory.wfFrom 0 m

/-- The instruction word at PC, big-endian, each byte at its own effective address (R53, R55, R105). -/
def fetchWord (s : State) : Word := wordOfBytes (s.mem.read s.pc.toNat) (s.mem.read (s.pc.toNat + 1))

/-- Memory with a word stored where the fetch at `pc` reads it. -/
def placeWord (m : Memory) (pc : Addr) (w : Word) : Memory :=
  (m.write pc.toNat (highByte w)).write (pc.toNat + 1) (lowByte w)

/-! ## Registers (spec/10_state.md R21) -/

/-- `V[x]`. -/
def State.reg (s : State) (x : Reg) : Byte := s.v[x.val]

/-- `V[x] <- b`. -/
def State.setReg (s : State) (x : Reg) (b : Byte) : State := { s with v := s.v.set x.val b }

/-- VF, the flag register (R22). -/
def flagReg : Reg := 15

/-- `V[X] <- result`, then `V[F] <- flag`: the flag is written last and wins when X = F (spec/42_alu.md R141). -/
def State.setRegFlag (s : State) (x : Reg) (result flag : Byte) : State := (s.setReg x result).setReg flagReg flag

/-- The register of number `k` (`k` is 0 to 15 wherever it is used). -/
def regNo (k : Nat) : Reg := Fin.ofNat 16 k

/-- `I <- a` (R28). -/
def State.setI (s : State) (a : Addr) : State := { s with i := a }

/-- `DT <- b` (R32). -/
def State.setDt (s : State) (b : Byte) : State := { s with dt := b }

/-- `ST <- b` (R33). -/
def State.setSt (s : State) (b : Byte) : State := { s with st := b }

/-- The state with memory `m`. -/
def State.setMem (s : State) (m : Memory) : State := { s with mem := m }

/-- `for k in 0 .. n − 1: MemWrite(base + k, 1, V[k])` (spec/46_index_memory.md R204). -/
def dumpRegs (s : State) (base : Nat) : Nat → Memory
  | 0 => s.mem
  | k + 1 => (dumpRegs s base k).write (base + k) (s.reg (regNo k))

/-- `for k in 0 .. n − 1: V[k] <- MemRead(base + k, 1)` (R205, with n = X + 1). -/
def loadRegs (s : State) (base : Nat) : Nat → State
  | 0 => s
  | k + 1 => (loadRegs s base k).setReg (regNo k) (s.mem.read (base + k))

/-! ## Stack (R29 to R31) -/

/-- SP as the 8-bit two's-complement field of R29: 0xFF is EMPTY. -/
def spField (sp : Option (Fin 16)) : Byte :=
  match sp with
  | none => 0xFF
  | some k => BitVec.ofNat 8 k.val

/-- SP one up, if the stack is not full (R31). -/
def spPush (sp : Option (Fin 16)) : Option (Fin 16) :=
  match sp with
  | none => some 0
  | some k => if h : k.val + 1 < 16 then some ⟨k.val + 1, h⟩ else none

/-- SP one down from `k` (R31): from 0 it becomes EMPTY. -/
def spPop (k : Fin 16) : Option (Fin 16) :=
  match k with
  | ⟨0, _⟩ => none
  | ⟨j + 1, h⟩ => some ⟨j, Nat.lt_of_succ_lt h⟩

/-- A push: `SP <- k; STACK[k] <- a`, with `k` one above the old SP (R31). -/
def State.push (s : State) (k : Fin 16) (a : Addr) : State := { s with sp := some k, stack := s.stack.set k.val a }

/-- A pop of entry `k`, which is not cleared: `SP <- SP − 1` (R30, R31). -/
def State.pop (s : State) (k : Fin 16) : State := { s with sp := spPop k }

/-- `STACK[k]`. -/
def State.entry (s : State) (k : Fin 16) : Addr := s.stack[k.val]

/-! ## Framebuffer (R34, spec/43_display.md) -/

/-- The port index of the pixel at column `x`, row `y`: `64 × y + x` (R252). -/
def pixelIndex (x y : Nat) : Nat := 64 * y + x

/-- `FB[y][x]`. -/
def Framebuffer.pixel (fb : Framebuffer) (x y : Nat) : Bool := fb.getLsbD (pixelIndex x y)

/-- `FB[y][x] <- FB[y][x] XOR 1`. -/
def Framebuffer.flip (fb : Framebuffer) (x y : Nat) : Framebuffer := fb ^^^ BitVec.twoPow 2048 (pixelIndex x y)

/-- The state with framebuffer `fb`. -/
def State.setFb (s : State) (fb : Framebuffer) : State := { s with fb := fb }

/-- A framebuffer being drawn on, and whether a set pixel has become unset (VF inside the loop of R171). -/
structure Canvas where
  fb : Framebuffer
  hit : Bool
  deriving DecidableEq, Repr

/-- One set sprite bit: the pixel is flipped, and a pixel that was set raises the collision (R171). -/
def Canvas.plot (p : Canvas) (x y : Nat) : Canvas := ⟨p.fb.flip x y, p.hit || p.fb.pixel x y⟩

/-- The first `n` columns of one sprite row at (x0, y): bit 7 − c is at column x0 + c (R172), each wrapped (R174). -/
def Canvas.drawRow (p : Canvas) (b : Byte) (x0 y : Nat) : Nat → Canvas
  | 0 => p
  | c + 1 =>
    let q := Canvas.drawRow p b x0 y c
    if b.getLsbD (7 - c) then q.plot ((x0 + c) % 64) (y % 32) else q

/-- The first `n` rows of the sprite at `base`, drawn at (x0, y0) (R171). -/
def Canvas.drawSprite (p : Canvas) (m : Memory) (base x0 y0 : Nat) : Nat → Canvas
  | 0 => p
  | r + 1 => Canvas.drawRow (Canvas.drawSprite p m base x0 y0 r) (m.read (base + r)) x0 (y0 + r) 8

/-! ## Inputs (spec/40_pipeline.md R101, R103) -/

/-- The input record of the coming step: the oldest one listed, or the free value. -/
def State.nextInput (s : State) : StepIn :=
  match s.inputs with
  | [] => Config.freeInput s.draws
  | a :: _ => a

/-- The start of a step: the input ports are sampled, once (R101). -/
def State.sample (s : State) : State :=
  match s.inputs with
  | [] => { s with inp := Config.freeInput s.draws, draws := s.draws + 1 }
  | a :: rest => { s with inp := a, inputs := rest }

/-- The state with `a` as its sampled record. -/
def State.setInp (s : State) (a : StepIn) : State := { s with inp := a }

/-- `KEYS <- in.keys` (R103). -/
def State.latchKeys (s : State) : State := { s with keys := s.inp.keys }

/-! ## The ends of a handler -/

/-- One timer after a tick: down by 1 when due and not 0 (spec/60_exceptions.md R240). -/
def tickTimer (due : Bool) (t : Byte) : Byte := if t = 0 then t else if due then t - 1 else t

/-- `tick(in)` (R240): the two timers independently (R241). -/
def State.tick (s : State) : State :=
  { s with dt := tickTimer s.inp.dtDue s.dt, st := tickTimer s.inp.stDue s.st }

/-- The end `done` of a handler: `tick(in); PC <- pc` (R107, R108). -/
def State.complete (s : State) (pc : Addr) : State := { s.tick with pc := pc }

/-- The numbering of the two faults (R220). -/
def faultCode (f : Fault) : Byte :=
  match f with
  | .stackOverflow => 0x01
  | .stackUnderflow => 0x02

/-- TAKING A FAULT, the end `fault` of a handler: `HALTED <- 1; FAULT <- (code, PC, w)` and nothing else, no tick, PC kept
(R112, R222). There is no return from a fault (R226): only `load` clears HALTED and FAULT. -/
def State.takeFault (s : State) (f : Fault) (w : Word) : State :=
  { s with halted := true, fault := some ⟨faultCode f, s.pc, w⟩ }

/-- The end `wait(r)` of a handler: `AWAIT <- r` and nothing else, no tick, PC kept (R113). -/
def State.suspend (s : State) (r : Reg) : State := { s with await := some r }

/-- `AWAIT <- none` (R104). -/
def State.clearAwait (s : State) : State := { s with await := none }

end Sys2Proof.Machine
end

