-- ==== Sys2Proof/Machine/Operands.lean ====
section
/-! DEFINITION. The operand forms (spec/30_encoding.md R73): next and skip addresses, NNN zero-extended, the key a register
names, the digits of a byte, the address of a glyph. V[X] and V[Y] are `State.reg`; NN is used as it stands. -/

namespace Sys2Proof.Machine

/-- The default `pc <- (PC + 2) mod 65536` (spec/40_pipeline.md R107). -/
def State.nextPc (s : State) : Addr := s.pc + 2

/-- `pc` after a skip instruction: `(PC + 4) mod 65536` when the condition holds (R107, spec/41_control_flow.md R128). -/
def State.skipPc (s : State) (cond : Bool) : Addr := if cond then s.pc + 4 else s.nextPc

/-- `zext_16(NNN)` (R73). -/
def zext16 (nnn : Addr12) : Addr := nnn.setWidth 16

/-- A byte as a 16-bit number. -/
def byteTo16 (b : Byte) : Addr := b.setWidth 16

/-- A key code as the byte a register receives (spec/44_keypad.md R183). -/
def keyByte (k : Key) : Byte := BitVec.ofNat 8 k.val

/-- `pressed(k)`: the snapshot for a code up to 15, the input `in.oor_pressed` above (R180). -/
def State.pressed (s : State) (code : Byte) : Bool :=
  if code.toNat ≤ 15 then s.keys.getLsbD code.toNat else s.inp.oorPressed

/-- `5 × V[X]`, the glyph address (spec/46_index_memory.md R202): the whole byte, not masked. -/
def glyphAddr (digit : Byte) : Addr := BitVec.ofNat 16 (5 * digit.toNat)

/-- The hundreds digit `v div 100` (R203). -/
def bcdHundreds (v : Byte) : Byte := BitVec.ofNat 8 (v.toNat / 100)

/-- The tens digit `(v div 10) mod 10` (R203). -/
def bcdTens (v : Byte) : Byte := BitVec.ofNat 8 (v.toNat / 10 % 10)

/-- The ones digit `v mod 10` (R203). -/
def bcdOnes (v : Byte) : Byte := BitVec.ofNat 8 (v.toNat % 10)

end Sys2Proof.Machine
end

