-- ==== Sys2Proof/Machine/Alu.lean ====
section
/-! DEFINITION. The ALU instructions (spec/42_alu.md R140 to R153): 8 bits, unsigned, results modulo 256. -/

namespace Sys2Proof.Machine

open Host (Outcome)

/-- `V[X] <- b`, then the step goes on at PC + 2. -/
def State.finishReg (s : State) (x : Reg) (b : Byte) : State := (s.setReg x b).complete s.nextPc

/-- `V[X] <- b`, then `V[F] <- flag` (R141), then the step goes on at PC + 2. -/
def State.finishRegFlag (s : State) (x : Reg) (b : Byte) (flag : Bool) : State :=
  (s.setRegFlag x b (flagByte flag)).complete s.nextPc

/-- LD Vx, NN, 6XNN (R142). -/
def execLdImm (x : Reg) (nn : Byte) (s : State) : Outcome State Fault Refusal := .next (s.finishReg x nn)

/-- ADD Vx, NN, 7XNN (R143): no flag. -/
def execAddImm (x : Reg) (nn : Byte) (s : State) : Outcome State Fault Refusal := .next (s.finishReg x (s.reg x + nn))

/-- LD Vx, Vy, 8XY0 (R144). -/
def execLdReg (x y : Reg) (s : State) : Outcome State Fault Refusal := .next (s.finishReg x (s.reg y))

/-- OR Vx, Vy, 8XY1 (R145). -/
def execOr (x y : Reg) (s : State) : Outcome State Fault Refusal := .next (s.finishReg x (s.reg x ||| s.reg y))

/-- AND Vx, Vy, 8XY2 (R146). -/
def execAnd (x y : Reg) (s : State) : Outcome State Fault Refusal := .next (s.finishReg x (s.reg x &&& s.reg y))

/-- XOR Vx, Vy, 8XY3 (R147). -/
def execXor (x y : Reg) (s : State) : Outcome State Fault Refusal := .next (s.finishReg x (s.reg x ^^^ s.reg y))

/-- ADD Vx, Vy, 8XY4 (R148). -/
def execAddReg (x y : Reg) (s : State) : Outcome State Fault Refusal :=
  .next (s.finishRegFlag x (s.reg x + s.reg y) (carryFlag (s.reg x) (s.reg y)))

/-- SUB Vx, Vy, 8XY5 (R149): V[X] − V[Y]. -/
def execSub (x y : Reg) (s : State) : Outcome State Fault Refusal :=
  .next (s.finishRegFlag x (s.reg x - s.reg y) (noBorrowFlag (s.reg x) (s.reg y)))

/-- SHR Vx, 8XY6 (R150). -/
def execShr (x : Reg) (s : State) : Outcome State Fault Refusal :=
  .next (s.finishRegFlag x (s.reg x >>> 1) (shiftedOutRight (s.reg x)))

/-- SUBN Vx, Vy, 8XY7 (R151): V[Y] − V[X]. -/
def execSubn (x y : Reg) (s : State) : Outcome State Fault Refusal :=
  .next (s.finishRegFlag x (s.reg y - s.reg x) (noBorrowFlag (s.reg y) (s.reg x)))

/-- SHL Vx, 8XYE (R152). -/
def execShl (x : Reg) (s : State) : Outcome State Fault Refusal :=
  .next (s.finishRegFlag x (s.reg x <<< 1) (shiftedOutLeft (s.reg x)))

/-- RND Vx, NN, CXNN (R153). -/
def execRnd (x : Reg) (nn : Byte) (s : State) : Outcome State Fault Refusal := .next (s.finishReg x (s.inp.rand &&& nn))

end Sys2Proof.Machine
end

