-- ==== Sys2Proof/Machine/Control.lean ====
section
/-! DEFINITION. Control transfer (spec/41_control_flow.md R120 to R130), SYS and the ignored words (spec/40_pipeline.md R110, R111). -/

namespace Sys2Proof.Machine

open Host (Outcome)

/-- RET, 0nEE (R120). The word recorded by an underflow is the instruction's own. -/
def execRet (n : Nibble) (s : State) : Outcome State Fault Refusal :=
  match s.sp with
  | none => .next (s.takeFault .stackUnderflow (encode (.ret n)))
  | some k => .next ((s.pop k).complete (s.entry k))

/-- JP NNN, 1NNN (R121). -/
def execJp (nnn : Addr12) (s : State) : Outcome State Fault Refusal := .next (s.complete (zext16 nnn))

/-- CALL NNN, 2NNN (R122): the pushed entry is the address of the instruction after the call. -/
def execCall (nnn : Addr12) (s : State) : Outcome State Fault Refusal :=
  match spPush s.sp with
  | none => .next (s.takeFault .stackOverflow (encode (.call nnn)))
  | some k => .next ((s.push k s.nextPc).complete (zext16 nnn))

/-- JP V0, NNN, BNNN (R123). -/
def execJpV0 (nnn : Addr12) (s : State) : Outcome State Fault Refusal :=
  .next (s.complete (zext16 nnn + byteTo16 (s.reg 0)))

/-- SE Vx, NN, 3XNN (R124). -/
def execSeImm (x : Reg) (nn : Byte) (s : State) : Outcome State Fault Refusal :=
  .next (s.complete (s.skipPc (s.reg x == nn)))

/-- SNE Vx, NN, 4XNN (R125). -/
def execSneImm (x : Reg) (nn : Byte) (s : State) : Outcome State Fault Refusal :=
  .next (s.complete (s.skipPc (s.reg x != nn)))

/-- SE Vx, Vy, 5XYN (R126). -/
def execSeReg (x y : Reg) (s : State) : Outcome State Fault Refusal :=
  .next (s.complete (s.skipPc (s.reg x == s.reg y)))

/-- SNE Vx, Vy, 9XYN (R127). -/
def execSneReg (x y : Reg) (s : State) : Outcome State Fault Refusal :=
  .next (s.complete (s.skipPc (s.reg x != s.reg y)))

/-- SYS NNN (R111): the handler does nothing. -/
def execSys (s : State) : Outcome State Fault Refusal := .next (s.complete s.nextPc)

/-- An ignored word of family 0x8 (R110): the handler does nothing. -/
def execIgnored8 (s : State) : Outcome State Fault Refusal := .next (s.complete s.nextPc)

/-- An ignored word of family 0xE (R110): the handler does nothing. -/
def execIgnoredE (s : State) : Outcome State Fault Refusal := .next (s.complete s.nextPc)

/-- An ignored word of family 0xF (R110): the handler does nothing. -/
def execIgnoredF (s : State) : Outcome State Fault Refusal := .next (s.complete s.nextPc)

end Sys2Proof.Machine
end

