-- ==== Sys2Proof/Machine/Display.lean ====
section
/-! DEFINITION. The display instructions (spec/43_display.md R170 to R177). -/

namespace Sys2Proof.Machine

open Host (Outcome)

/-- CLS, 0nE0 (R170). -/
def execCls (s : State) : Outcome State Fault Refusal := .next ((s.setFb 0).complete s.nextPc)

/-- The canvas after the sprite of DXYN is drawn. The coordinates and I are read once, before VF is written (R177). -/
def State.drawn (s : State) (x y : Reg) (n : Nat) : Canvas :=
  Canvas.drawSprite ⟨s.fb, false⟩ s.mem s.i.toNat (s.reg x).toNat (s.reg y).toNat n

/-- DRW Vx, Vy, N, DXYN (R171): VF is 1 exactly when a set pixel became unset. -/
def execDrw (x y : Reg) (n : Fin 16) (s : State) : Outcome State Fault Refusal :=
  .next (((s.setFb (s.drawn x y n.val).fb).setReg flagReg (flagByte (s.drawn x y n.val).hit)).complete s.nextPc)

end Sys2Proof.Machine
end

