-- ==== Sys2Proof/Machine/Index.lean ====
section
/-! DEFINITION. Index register and memory instructions (spec/46_index_memory.md R200 to R207). -/

namespace Sys2Proof.Machine

open Host (Outcome)

/-- LD I, NNN, ANNN (R200). -/
def execLdI (nnn : Addr12) (s : State) : Outcome State Fault Refusal := .next ((s.setI (zext16 nnn)).complete s.nextPc)

/-- ADD I, Vx, FX1E (R201): modulo 65536, no flag. -/
def execAddI (x : Reg) (s : State) : Outcome State Fault Refusal :=
  .next ((s.setI (s.i + byteTo16 (s.reg x))).complete s.nextPc)

/-- LD F, Vx, FX29 (R202). -/
def execLdF (x : Reg) (s : State) : Outcome State Fault Refusal :=
  .next ((s.setI (glyphAddr (s.reg x))).complete s.nextPc)

/-- Memory after FX33 (R203): three digits from I up, hundreds first. -/
def State.bcdMem (s : State) (x : Reg) : Memory :=
  ((s.mem.write s.i.toNat (bcdHundreds (s.reg x))).write (s.i.toNat + 1) (bcdTens (s.reg x))).write
    (s.i.toNat + 2) (bcdOnes (s.reg x))

/-- LD B, Vx, FX33 (R203): I is not changed. -/
def execLdB (x : Reg) (s : State) : Outcome State Fault Refusal := .next ((s.setMem (s.bcdMem x)).complete s.nextPc)

/-- LD [I], Vx, FX55 (R204): V0 to V(X − 1); I is not changed. -/
def execLdMemVx (x : Reg) (s : State) : Outcome State Fault Refusal :=
  .next ((s.setMem (dumpRegs s s.i.toNat x.val)).complete s.nextPc)

/-- LD Vx, [I], FX65 (R205): V0 to VX; I is not changed. -/
def execLdVxMem (x : Reg) (s : State) : Outcome State Fault Refusal :=
  .next ((loadRegs s s.i.toNat (x.val + 1)).complete s.nextPc)

end Sys2Proof.Machine
end

