-- ==== Sys2Proof/Machine/Keypad.lean ====
section
/-! DEFINITION. The keypad instructions (spec/44_keypad.md R180 to R185) and the step taken while suspended (spec/40_pipeline.md R104). -/

namespace Sys2Proof.Machine

open Host (Outcome)

/-- SKP Vx, EX9E (R181). -/
def execSkp (x : Reg) (s : State) : Outcome State Fault Refusal :=
  .next (s.complete (s.skipPc (s.pressed (s.reg x))))

/-- SKNP Vx, EXA1 (R182). -/
def execSknp (x : Reg) (s : State) : Outcome State Fault Refusal :=
  .next (s.complete (s.skipPc (!s.pressed (s.reg x))))

/-- FX0A with a key event: `V[r] <- k`, then the step goes on at PC + 2 (R183, R104). -/
def State.keyResolved (s : State) (r : Reg) (k : Key) : State := (s.setReg r (keyByte k)).complete s.nextPc

/-- LD Vx, K, FX0A (R183): completes at once on a key event, else suspends. -/
def execLdVxK (x : Reg) (s : State) : Outcome State Fault Refusal :=
  .next (match s.inp.keyEvent with
    | some k => s.keyResolved x k
    | none => s.suspend x)

/-- The step taken while AWAIT = r, after the keypad latch (R104): a key event completes the FX0A, else nothing changes. -/
def suspendedStep (r : Reg) (s : State) : State :=
  match s.inp.keyEvent with
  | some k => s.clearAwait.keyResolved r k
  | none => s

end Sys2Proof.Machine
end

