-- ==== Sys2Proof/Machine/Timers.lean ====
section
/-! DEFINITION. The timer instructions (spec/45_timers.md R190 to R193). The tick follows in `State.complete`, after the handler. -/

namespace Sys2Proof.Machine

open Host (Outcome)

/-- LD Vx, DT, FX07 (R190): DT before this step's tick. -/
def execLdVxDt (x : Reg) (s : State) : Outcome State Fault Refusal := .next ((s.setReg x s.dt).complete s.nextPc)

/-- LD DT, Vx, FX15 (R191): the new value is subject to this step's tick. -/
def execLdDtVx (x : Reg) (s : State) : Outcome State Fault Refusal := .next ((s.setDt (s.reg x)).complete s.nextPc)

/-- LD ST, Vx, FX18 (R192): the new value is subject to this step's tick. -/
def execLdStVx (x : Reg) (s : State) : Outcome State Fault Refusal := .next ((s.setSt (s.reg x)).complete s.nextPc)

end Sys2Proof.Machine
end

