-- ==== Sys2Proof/Machine/Step.lean ====
section
/-! DEFINITION. One step (spec/40_pipeline.md R109), and how a word is put where the next step fetches. -/

namespace Sys2Proof.Machine

/-- One step. Every step samples one input record (R101). A halted core does nothing with it: its record is dropped, never
queued (R102, R184). Else the keypad is latched (R103); then the suspended FX0A (R104), or fetch, decode and run one
instruction (R105, R106). -/
def step (s : State) : Host.Outcome State Fault Refusal :=
  if s.halted then .next s.sample
  else
    match s.await with
    | some r => .next (suspendedStep r s.sample.latchKeys)
    | none => exec (decode (fetchWord s.sample.latchKeys)) s.sample.latchKeys

/-- `s` with the instruction whose bits are `w` stored at PC, big-endian, and with the core neither halted nor waiting,
so that the next step fetches and runs it (assumption 4). -/
def State.withFetchWord (s : State) (nbits w : Nat) : State :=
  { s with mem := placeWord s.mem s.pc (tableWord nbits w), halted := false, await := none }

end Sys2Proof.Machine
end

