-- ==== Sys2Proof/Machine/Load.lean ====
section
/-! DEFINITION. The host's `load(image)` (spec/70_reset_and_hazards.md R261 to R264): the only reset of the machine. -/

namespace Sys2Proof.Machine

/-- What load answers to its caller (R261, R262). -/
inductive LoadResult where
  | ok
  /-- the image is longer than 4096 − 0x200 bytes -/
  | tooLarge
  deriving DecidableEq, Repr

/-- The bytes of the image, copied verbatim from address `a` up (R263). -/
def copyImage : List Byte → Nat → Memory → Memory
  | [], _, m => m
  | b :: rest, a, m => copyImage rest (a + 1) (m.write a b)

/-- The reset content of memory for a FONT: its 80 bytes at 0x000 to 0x04F, 0 elsewhere (R41, R57). -/
def fontMemory (f : Font) : Memory := copyImage f.toList 0 []

/-- The reset state for a FONT: every item of R20 at its value of R41 (also the state at power-on, R260). `State.reset` is this
state at the default FONT. -/
def State.resetWith (f : Font) : State := { State.reset with mem := fontMemory f }

/-- The reset part of load. The environment's side of the model (the input records) is not the core's and stays
(assumption 9). -/
def State.loadReset (s : State) (f : Font) : State :=
  { State.resetWith f with loadError := s.loadError, inp := s.inp, inputs := s.inputs, draws := s.draws }

/-- `load(image)` (R261) of the machine whose FONT is `f`: may be applied at any step boundary, also while halted or waiting. -/
def load (image : List Byte) (s : State) (f : Font := defaultFont) : State × LoadResult :=
  if image.length > 4096 - 0x200 then ({ s.loadReset f with loadError := true }, .tooLarge)
  else ({ s.loadReset f with mem := copyImage image 0x200 (s.loadReset f).mem, loadError := false }, .ok)

end Sys2Proof.Machine
end

