-- ==== Sys2Proof/Machine/Actions.lean ====
section
/-! DEFINITION. Everything the host can do to the core (spec/40_pipeline.md R100): a step with an input record, or a load between steps. -/

namespace Sys2Proof.Machine

/-- One action of the host at a step boundary. -/
inductive HostAction where
  /-- the `step` strobe, with this record on the input ports (R101) -/
  | step (inp : StepIn)
  /-- the `load` strobe, with this image (R261) -/
  | load (image : List Byte)
  deriving DecidableEq, Repr

/-- `step(S, in)` of R109: a step whose input record is `a`. -/
def stepWith (a : StepIn) (s : State) : Host.Outcome State Fault Refusal := step { s with inputs := a :: s.inputs }

/-- The state after an action of the host, on the machine whose FONT is `f`: only a load uses it. -/
def act (h : HostAction) (s : State) (f : Font := defaultFont) : Host.Outcome State Fault Refusal :=
  match h with
  | .step a => stepWith a s
  | .load image => .next (load image s f).1

end Sys2Proof.Machine
end

