-- ==== Sys2Proof/Machine/Ports.lean ====
section
/-! DEFINITION. The output ports of the core (spec/60_exceptions.md R247, R248, R252), a view of the state at a step boundary (R115). -/

namespace Sys2Proof.Machine

/-- The output ports of R248. -/
structure OutPorts where
  /-- the framebuffer, bit `64 × y + x`, 1 = set (R252) -/
  fb : BitVec 2048
  /-- the current ST (R247) -/
  sound : Byte
  halted : Bool
  /-- the FAULT record, 0 when none -/
  faultCode : Byte
  faultPc : Addr
  faultWord : Word
  /-- AWAIT ≠ none -/
  awaitingKey : Bool
  /-- the last load was rejected as TooLarge (R262) -/
  loadError : Bool
  deriving DecidableEq, Repr

/-- What the ports show of a state (R248). -/
def State.outPorts (s : State) : OutPorts where
  fb := s.fb
  sound := s.st
  halted := s.halted
  faultCode := match s.fault with | some r => r.code | none => 0
  faultPc := match s.fault with | some r => r.pc | none => 0
  faultWord := match s.fault with | some r => r.word | none => 0
  awaitingKey := s.await.isSome
  loadError := s.loadError

end Sys2Proof.Machine
end

