-- ==== Sys2Proof/Safety.lean ====
section
/-! DEFINITION. The terms the statements use: what two states have in common, what an instruction that completes leaves, what a
fault leaves, and the invariant of the machine. -/

namespace Sys2Proof.Machine

/-- SP as the number of spec/10_state.md R29: −1 is EMPTY, else 0 to 15. -/
def spValue (sp : Option (Fin 16)) : Int :=
  match sp with
  | none => -1
  | some k => k.val

/-- The parts of the state (R20, spec/60_exceptions.md R248), and the model's own input side. -/
inductive Part where
  | regs | index | pc | stack | dt | st | memory | screen | keys | await | faultLatch | loadError | environment
  deriving DecidableEq, Repr

/-- Two states agree on a part. -/
def Part.same : Part → State → State → Prop
  | .regs, s, t => ∀ r, t.reg r = s.reg r
  | .index, s, t => t.i = s.i
  | .pc, s, t => t.pc = s.pc
  | .stack, s, t => t.sp = s.sp ∧ ∀ k, t.entry k = s.entry k
  | .dt, s, t => t.dt = s.dt
  | .st, s, t => t.st = s.st
  | .memory, s, t => ∀ a, t.mem.read a = s.mem.read a
  | .screen, s, t => ∀ x y, x < 64 → y < 32 → t.fb.pixel x y = s.fb.pixel x y
  | .keys, s, t => t.keys = s.keys
  | .await, s, t => t.await = s.await
  | .faultLatch, s, t => t.halted = s.halted ∧ t.fault = s.fault
  | .loadError, s, t => t.loadError = s.loadError
  | .environment, s, t => t.inp = s.inp ∧ t.inputs = s.inputs ∧ t.draws = s.draws

/-- `t` differs from `s` in no part but those listed. -/
def KeepsAllBut (parts : List Part) (s t : State) : Prop := ∀ p, p ∉ parts → p.same s t

/-- `t` differs from `s` in no data register but those listed. -/
def KeepsRegsBut (xs : List Reg) (s t : State) : Prop := ∀ r, r ∉ xs → t.reg r = s.reg r

/-- A timer after the tick (R240): one less when due and not 0. (Subtraction on Nat stops at 0.) -/
def tickedValue (due : Bool) (t : Byte) : Nat := t.toNat - (if due then 1 else 0)

/-- The handler of `i` ends done in `t`: PC is the given number modulo 65536, both timers are ticked by the sampled due inputs
(spec/40_pipeline.md R107, R108), and nothing else changes but the parts listed. -/
def EndsDone (i : Instr) (s t : State) (pc : Nat) (changed : List Part) : Prop :=
  exec i s = .next t ∧ t.pc.toNat = pc % 65536 ∧ t.dt.toNat = tickedValue s.inp.dtDue s.dt ∧
    t.st.toNat = tickedValue s.inp.stDue s.st ∧ KeepsAllBut (.pc :: .dt :: .st :: changed) s t

/-- A fault is taken (R222): HALTED is 1, FAULT is the code, the PC and the word, and nothing else changes. -/
def FaultTaken (code : Byte) (w : Word) (s t : State) : Prop :=
  t.halted = true ∧ t.fault = some ⟨code, s.pc, w⟩ ∧ KeepsAllBut [.faultLatch] s t

/-- The sprite of `n` rows at I, drawn at (V[X], V[Y]), has a set bit at the pixel in column `px`, row `py`
(spec/43_display.md R171, R172, R174). -/
def SpriteCovers (s : State) (x y : Reg) (n px py : Nat) : Prop :=
  ∃ r c, r < n ∧ c < 8 ∧ px = ((s.reg x).toNat + c) % 64 ∧ py = ((s.reg y).toNat + r) % 32 ∧
    (s.mem.read (s.i.toNat + r)).getLsbD (7 - c) = true

/-- The parts an instruction may change, besides PC and the timers. -/
def mayChange : Instr → List Part
  | .cls _ => [.screen]
  | .ret _ | .call _ => [.stack, .faultLatch]
  | .jp _ | .jpV0 _ | .seImm _ _ | .sneImm _ _ | .seReg _ _ _ | .sneReg _ _ _ | .skp _ | .sknp _ => []
  | .ldImm _ _ | .addImm _ _ | .ldReg _ _ | .orReg _ _ | .andReg _ _ | .xorReg _ _ | .addReg _ _ | .subReg _ _
  | .shr _ _ | .subnReg _ _ | .shl _ _ | .rnd _ _ | .ldVxDt _ | .ldVxMem _ => [.regs]
  | .drw _ _ _ => [.regs, .screen]
  | .ldVxK _ => [.regs, .await]
  | .ldDtVx _ | .ldStVx _ => []
  | .ldI _ | .addI _ | .ldF _ => [.index]
  | .ldB _ | .ldMemVx _ => [.memory]
  | .sys _ | .ignored8 _ _ _ | .ignoredE _ _ | .ignoredF _ _ => []

/-- The parts an instruction uses, the data registers and the sampled record apart: those it can read (the `read by` column of R20 and the
table of spec/20_memory.md R51), and those other than the timers that it writes. PC is read by every instruction but the two jumps, for the
address of the next one. -/
def usedParts : Instr → List Part
  | .jp _ | .jpV0 _ => []
  | .cls _ => [.pc, .screen]
  | .ret _ | .call _ => [.pc, .stack, .faultLatch]
  | .drw _ _ _ => [.pc, .screen, .index, .memory]
  | .skp _ | .sknp _ => [.pc, .keys]
  | .ldVxDt _ => [.pc, .dt]
  | .ldVxK _ => [.pc, .await]
  | .ldI _ | .addI _ | .ldF _ => [.pc, .index]
  | .ldB _ | .ldMemVx _ | .ldVxMem _ => [.pc, .index, .memory]
  | .seImm _ _ | .sneImm _ _ | .seReg _ _ _ | .sneReg _ _ _ | .ldImm _ _ | .addImm _ _ | .ldReg _ _
  | .orReg _ _ | .andReg _ _ | .xorReg _ _ | .addReg _ _ | .subReg _ _ | .shr _ _ | .subnReg _ _ | .shl _ _ | .rnd _ _
  | .ldDtVx _ | .ldStVx _ | .sys _ | .ignored8 _ _ _ | .ignoredE _ _ | .ignoredF _ _ => [.pc]

/-- The data registers an instruction may read: the `reads` column of R24. -/
def readsReg (i : Instr) (r : Reg) : Prop :=
  match i with
  | .seImm x _ | .sneImm x _ | .addImm x _ | .shr x _ | .shl x _ | .skp x | .sknp x | .ldDtVx x | .ldStVx x | .addI x
  | .ldF x | .ldB x => r = x
  | .ldReg _ y => r = y
  | .seReg x y _ | .sneReg x y _ | .orReg x y | .andReg x y | .xorReg x y | .addReg x y | .subReg x y | .subnReg x y
  | .drw x y _ => r = x ∨ r = y
  | .jpV0 _ => r = 0
  | .ldMemVx x => r < x
  | .cls _ | .ret _ | .jp _ | .call _ | .ldImm _ _ | .ldI _ | .rnd _ _ | .ldVxDt _ | .ldVxK _ | .ldVxMem _ | .sys _
  | .ignored8 _ _ _ | .ignoredE _ _ | .ignoredF _ _ => False

/-- The data registers an instruction may write: the `writes` column of R24. -/
def writesReg (i : Instr) (r : Reg) : Prop :=
  match i with
  | .ldImm x _ | .addImm x _ | .ldReg x _ | .orReg x _ | .andReg x _ | .xorReg x _ | .rnd x _ | .ldVxDt x
  | .ldVxK x => r = x
  | .addReg x _ | .subReg x _ | .subnReg x _ | .shr x _ | .shl x _ => r = x ∨ r = flagReg
  | .drw _ _ _ => r = flagReg
  | .ldVxMem x => r.val ≤ x.val
  | .cls _ | .ret _ | .call _ | .jp _ | .jpV0 _ | .seImm _ _ | .sneImm _ _ | .seReg _ _ _ | .sneReg _ _ _ | .skp _
  | .sknp _ | .ldDtVx _ | .ldStVx _ | .ldI _ | .addI _ | .ldF _ | .ldB _ | .ldMemVx _ | .sys _ | .ignored8 _ _ _
  | .ignoredE _ _ | .ignoredF _ _ => False

/-- The record `a` gives an instruction the same inputs as the record `b`, by the `used by` column of
spec/40_pipeline.md R101: the due bits for every instruction, and each other input only for the instructions that use it. -/
def sameInputs (i : Instr) (a b : StepIn) : Prop :=
  a.dtDue = b.dtDue ∧ a.stDue = b.stDue ∧
  (∀ x nn, i = .rnd x nn → a.rand = b.rand) ∧
  (∀ x, i = .ldVxK x → a.keyEvent = b.keyEvent) ∧
  (∀ x, i = .skp x ∨ i = .sknp x → a.oorPressed = b.oorPressed)

/-- The invariant of the machine. -/
structure Inv (s : State) : Prop where
  /-- memory is in canonical form -/
  memory : s.mem.wf = true
  /-- AWAIT = r means the core is suspended inside an FX0A with destination r, at its address (R36) -/
  waiting : ∀ r, s.await = some r → decode (fetchWord s) = .ldVxK r
  /-- a halted core is not also waiting (R228) -/
  haltedNotWaiting : s.halted = true → s.await = none
  /-- FAULT holds a record exactly while HALTED (R37) -/
  record : s.halted = true ↔ s.fault ≠ none
  /-- the record is of the instruction at PC, a CALL on a full stack or a RET on an empty one (R220, R222) -/
  cause : ∀ f, s.fault = some f → f.pc = s.pc ∧ f.word = fetchWord s ∧
    ((f.code = 0x01 ∧ spValue s.sp = 15 ∧ ∃ nnn, decode f.word = .call nnn) ∨
      (f.code = 0x02 ∧ spValue s.sp = -1 ∧ ∃ n, decode f.word = .ret n))

end Sys2Proof.Machine
end

