-- ==== Sys2Proof/Certificates/Slice0/Obligations.lean ====
section
/-! DEFINITION. The statements for the provers. `exec i s` is a whole step of the instruction `i` from a state `s` whose inputs are
sampled and whose keypad is latched; `EndsDone`, `FaultTaken`, `KeepsAllBut` and `KeepsRegsBut` (Safety.lean) say what it leaves
unchanged. A clause `decode (word…) = i` says which words the instruction stands for (spec/30_encoding.md R80). -/

open Sys2Proof Sys2Proof.Machine

/-! ## Encoding -/

/-- For every well-formed instruction, decoding its word gives it back with every operand, and decoding its two bytes consumes
exactly these two. -/
def Obligations.DecodeInvertsEncode : Prop :=
  ∀ i : Instr, i.wellFormed = true → decode (encode i) = i ∧
    ∀ rest, decodeBytes (highByte (encode i) :: lowByte (encode i) :: rest) = .ok (i, rest)

/-- Every 16-bit word decodes to a well-formed instruction whose word it is: no bit of a word is dropped. That the bits an instruction
ignores are kept, as raw fields, is the model's own choice of representation (assumption 5): the spec ignores them (R73). -/
def Obligations.EncodeInvertsDecode : Prop :=
  ∀ w : Word, (decode w).wellFormed = true ∧ encode (decode w) = w

/-- The dispatch on fields (R74 to R79) agrees with the table of R80: the decoder takes the first row, in the table's order, whose
`(w AND mask) = match`. -/
def Obligations.DecodeTakesFirstMatchingRow : Prop :=
  ∀ w : Word, firstRow w = some (decode w).row

/-- Words written out from the spec decode to the instruction they stand for: the five words the source shows (R81), and one of each
other kind. A sanity statement. -/
def Obligations.SampleWordsDecode : Prop :=
  decode 0x00E0#16 = .cls 0 ∧ decode 0x6A3C#16 = .ldImm 0xA 0x3C#8 ∧ decode 0xA500#16 = .ldI 0x500#12 ∧
    decode 0xD0A1#16 = .drw 0 0xA 1 ∧ decode 0x3A3C#16 = .seImm 0xA 0x3C#8 ∧ decode 0x0FEE#16 = .ret 0xF#4 ∧
    decode 0x8014#16 = .addReg 0 1 ∧ decode 0xE5A1#16 = .sknp 5 ∧ decode 0xF30A#16 = .ldVxK 3 ∧
    decode 0xF265#16 = .ldVxMem 2 ∧ decode 0x2300#16 = .call 0x300#12 ∧ decode 0x8AB8#16 = .ignored8 0xA#4 0xB#4 0x8#4

/-! ## The step -/

/-- R55: the fetch reads its two bytes big-endian at `PC mod 4096` and `(PC + 1) mod 4096`. -/
def Obligations.FetchReadsBigEndianWord : Prop :=
  ∀ s : State, (fetchWord s).toNat =
    256 * (s.mem.read (s.pc.toNat % 4096)).toNat + (s.mem.read ((s.pc.toNat + 1) % 4096)).toNat

/-- When the bytes at PC are those of a well-formed instruction and the core is neither halted nor waiting, the step is that
instruction on the state whose inputs are sampled and whose keypad is latched. -/
def Obligations.StepRunsDecodedInstruction : Prop :=
  ∀ (s : State) (i : Instr), s.halted = false → s.await = none → i.wellFormed = true →
    s.mem.read s.pc.toNat = highByte (encode i) → s.mem.read (s.pc.toNat + 1) = lowByte (encode i) →
    step s = exec i { s with
      inp := s.nextInput, keys := s.nextInput.keys, inputs := s.inputs.tail,
      draws := s.draws + (if s.inputs = [] then 1 else 0) }

/-- Every step of every state answers a next state: no word is illegal and nothing stops the model. -/
def Obligations.StepAlwaysAnswersNext : Prop :=
  ∀ s : State, ∃ t, step s = .next t

/-- R102: a halted core stays exactly as it is, however many steps are taken, and a load leaves the halted state. (The model's record of
inputs goes on: each step drops the record presented to it.) -/
def Obligations.HaltedStepsChangeNothing : Prop :=
  ∀ (s : State) (k : Nat) (image : List Byte) (f : Font), s.halted = true →
    (∃ t, core.run k s = .next t ∧ t = { s with inp := t.inp, inputs := t.inputs, draws := t.draws }) ∧
    (load image s f).1.halted = false

/-- R104: a step taken while AWAIT = r. Without a key event only KEYS changes; with one, V[r] is the key code, AWAIT is none, both timers
are ticked and PC advances by 2. (The environment part is the model's record of inputs.) -/
def Obligations.SuspendedStepWaitsForKey : Prop :=
  ∀ (s : State) (a : StepIn) (r : Reg), s.halted = false → s.await = some r →
    (a.keyEvent = none → ∃ t, stepWith a s = .next t ∧ t.keys = a.keys ∧ KeepsAllBut [.keys, .environment] s t) ∧
    (∀ k, a.keyEvent = some k → ∃ t, stepWith a s = .next t ∧ t.keys = a.keys ∧ t.await = none ∧
      (t.reg r).toNat = k.val ∧ KeepsRegsBut [r] s t ∧ t.pc.toNat = (s.pc.toNat + 2) % 65536 ∧
      t.dt.toNat = tickedValue a.dtDue s.dt ∧ t.st.toNat = tickedValue a.stDue s.st ∧
      KeepsAllBut [.keys, .environment, .regs, .await, .pc, .dt, .st] s t)

/-- R103: the keypad latch is the first action of every step that is not halted, waiting or not: what the step does after it, it does to the
state whose KEYS is the snapshot of the record; the snapshot before the step has no effect on anything; and after the step KEYS is that of
the record, whatever it executed. -/
def Obligations.RunningStepLatchesKeys : Prop :=
  ∀ (s : State) (a : StepIn), s.halted = false →
    (s.await = none → stepWith a s = exec (decode (fetchWord s)) { s with inp := a, keys := a.keys }) ∧
    (∀ r, s.await = some r → stepWith a s = .next (suspendedStep r { s with inp := a, keys := a.keys })) ∧
    (∀ k, stepWith a { s with keys := k } = stepWith a s) ∧
    ∃ t, stepWith a s = .next t ∧ t.keys = a.keys

/-- R243: a step that ends halted or waiting (a halted step, a fault step, a step that suspends on FX0A, a step taken while suspended
without a key event) leaves both timers as they were, whatever the due inputs are. -/
def Obligations.UncompletedStepsDoNotTick : Prop :=
  ∀ (s : State) (a : StepIn) (t : State), stepWith a s = .next t → (t.halted = true ∨ t.await ≠ none) →
    t.dt = s.dt ∧ t.st = s.st

/-- R240: a step that completes ticks each timer once, by its own due input; where the instruction it executes writes that timer (FX15, FX18),
the value written is ticked. -/
def Obligations.CompletedStepsTickOnce : Prop :=
  ∀ (s : State) (a : StepIn) (t : State), stepWith a s = .next t → t.halted = false → t.await = none →
    ((s.await = none → ∀ x, decode (fetchWord s) ≠ .ldDtVx x) → t.dt.toNat = tickedValue a.dtDue s.dt) ∧
    ((s.await = none → ∀ x, decode (fetchWord s) ≠ .ldStVx x) → t.st.toNat = tickedValue a.stDue s.st) ∧
    (∀ x, s.await = none → decode (fetchWord s) = .ldDtVx x → t.dt.toNat = tickedValue a.dtDue (s.reg x)) ∧
    (∀ x, s.await = none → decode (fetchWord s) = .ldStVx x → t.st.toNat = tickedValue a.stDue (s.reg x))

/-- R193 for a run: over k steps none of which executes FX15, DT falls by at most k and never rises. -/
def Obligations.DelayTimerFallsAtMostOncePerStep : Prop :=
  ∀ (k : Nat) (s t : State), core.run k s = .next t →
    (∀ j u x, j < k → core.run j s = .next u → decode (fetchWord u) ≠ .ldDtVx x) →
    s.dt.toNat - k ≤ t.dt.toNat ∧ t.dt.toNat ≤ s.dt.toNat

/-! ## The invariant -/

/-- Every step keeps the invariant `Inv`: canonical memory, a waiting core stands at its FX0A, the fault record is of the CALL or RET at
PC. -/
def Obligations.StepKeepsInvariant : Prop :=
  ∀ s t : State, Inv s → step s = .next t → Inv t

/-- The reset state meets the invariant, at the default FONT and at every other. -/
def Obligations.ResetMeetsInvariant : Prop :=
  Inv State.reset ∧ ∀ f : Font, Inv (State.resetWith f)

/-- Load gives a state that meets the invariant, from any state, with any image and any FONT. -/
def Obligations.LoadEstablishesInvariant : Prop :=
  ∀ (image : List Byte) (s : State) (f : Font), Inv (load image s f).1

/-! ## Faults -/

/-- R220, R112, R222, R224: a running core becomes halted exactly by a CALL at SP = 15 or a RET at SP = EMPTY; then the fault ports show the
code, the PC and the word of that instruction, and nothing else has changed but KEYS (and the model's record of inputs). -/
def Obligations.FaultsAreExactlyStackFaults : Prop :=
  ∀ (s : State) (a : StepIn), s.halted = false → s.await = none → ∃ t, stepWith a s = .next t ∧
    (t.halted = true ↔ (∃ nnn, decode (fetchWord s) = .call nnn ∧ spValue s.sp = 15) ∨
      (∃ n, decode (fetchWord s) = .ret n ∧ spValue s.sp = -1)) ∧
    (t.halted = true →
      (∀ nnn, decode (fetchWord s) = .call nnn → t.outPorts.faultCode = 0x01) ∧
      (∀ n, decode (fetchWord s) = .ret n → t.outPorts.faultCode = 0x02) ∧
      t.outPorts.halted = true ∧ t.outPorts.faultPc = s.pc ∧ t.outPorts.faultWord = fetchWord s ∧
      t.keys = a.keys ∧ KeepsAllBut [.keys, .faultLatch, .environment] s t)

/-! ## Control transfer -/

/-- R120: RET pops the return address, the entry is not cleared; on an empty stack it takes StackUnderflow and has no other
effect. -/
def Obligations.RetPopsReturnAddress : Prop :=
  ∀ (s : State) (n : Nibble),
    decode (wordXNN 0x0#4 n 0xEE#8) = .ret n ∧
    (s.sp = none → ∃ t, exec (.ret n) s = .next t ∧ FaultTaken 0x02 (wordXNN 0x0#4 n 0xEE#8) s t) ∧
    (∀ k, s.sp = some k → ∃ t, EndsDone (.ret n) s t (s.entry k).toNat [.stack] ∧
      spValue t.sp = (k.val : Int) - 1 ∧ ∀ j, t.entry j = s.entry j)

/-- R122: CALL pushes PC + 2 one entry up and goes to NNN; on a full stack it takes StackOverflow and has no other effect. -/
def Obligations.CallPushesReturnAddress : Prop :=
  ∀ (s : State) (nnn : Addr12),
    decode (wordNNN 0x2#4 nnn) = .call nnn ∧
    (spValue s.sp = 15 → ∃ t, exec (.call nnn) s = .next t ∧ FaultTaken 0x01 (wordNNN 0x2#4 nnn) s t) ∧
    (spValue s.sp ≠ 15 → ∃ t, EndsDone (.call nnn) s t nnn.toNat [.stack] ∧ spValue t.sp = spValue s.sp + 1 ∧
      (∀ j : Fin 16, (j.val : Int) = spValue s.sp + 1 → (t.entry j).toNat = (s.pc.toNat + 2) % 65536) ∧
      (∀ j : Fin 16, (j.val : Int) ≠ spValue s.sp + 1 → t.entry j = s.entry j))

/-- R129: a RET executed after a CALL, in any later state with the stack the CALL left, restores PC to the instruction after the call
and SP to its depth before the call. -/
def Obligations.CallThenRetRoundTrip : Prop :=
  ∀ (s : State) (nnn : Addr12) (n : Nibble), spValue s.sp ≠ 15 → ∃ t, exec (.call nnn) s = .next t ∧
    ∀ t' : State, t'.sp = t.sp → (∀ j, t'.entry j = t.entry j) →
      ∃ u, exec (.ret n) t' = .next u ∧ u.pc.toNat = (s.pc.toNat + 2) % 65536 ∧ u.sp = s.sp

/-- R121: JP goes to NNN; nothing else changes but the ticked timers. -/
def Obligations.JumpGoesToTarget : Prop :=
  ∀ (s : State) (nnn : Addr12),
    decode (wordNNN 0x1#4 nnn) = .jp nnn ∧ ∃ t, EndsDone (.jp nnn) s t nnn.toNat []

/-- JP V0 goes to (NNN + V0) mod 65536; nothing else changes but the ticked timers. The spec marks these semantics as general
knowledge (R123, D25). -/
def Obligations.JumpV0AddsOffset : Prop :=
  ∀ (s : State) (nnn : Addr12),
    decode (wordNNN 0xB#4 nnn) = .jpV0 nnn ∧ ∃ t, EndsDone (.jpV0 nnn) s t (nnn.toNat + (s.reg 0).toNat) []

/-- R124 to R127: the skips on equality and inequality with an immediate and with a register, for every ignored N; nothing else
changes. -/
def Obligations.CompareSkipsAdvance : Prop :=
  ∀ (s : State) (x y : Reg) (nn : Byte) (n : Nibble),
    decode (wordXNN 0x3#4 (regBits x) nn) = .seImm x nn ∧ decode (wordXNN 0x4#4 (regBits x) nn) = .sneImm x nn ∧
    decode (wordXYN 0x5#4 (regBits x) (regBits y) n) = .seReg x y n ∧
    decode (wordXYN 0x9#4 (regBits x) (regBits y) n) = .sneReg x y n ∧
    (∃ t, EndsDone (.seImm x nn) s t (s.pc.toNat + (if s.reg x = nn then 4 else 2)) []) ∧
    (∃ t, EndsDone (.sneImm x nn) s t (s.pc.toNat + (if s.reg x = nn then 2 else 4)) []) ∧
    (∃ t, EndsDone (.seReg x y n) s t (s.pc.toNat + (if s.reg x = s.reg y then 4 else 2)) []) ∧
    (∃ t, EndsDone (.sneReg x y n) s t (s.pc.toNat + (if s.reg x = s.reg y then 2 else 4)) [])

/-! ## ALU -/

/-- R142 to R144: load immediate, add immediate (modulo 256, no flag) and move; no register but V[X] changes. -/
def Obligations.LoadsAndAddImmediate : Prop :=
  ∀ (s : State) (x y : Reg) (nn : Byte),
    decode (wordXNN 0x6#4 (regBits x) nn) = .ldImm x nn ∧ decode (wordXNN 0x7#4 (regBits x) nn) = .addImm x nn ∧
    decode (wordXYN 0x8#4 (regBits x) (regBits y) 0x0#4) = .ldReg x y ∧
    (∃ t, EndsDone (.ldImm x nn) s t (s.pc.toNat + 2) [.regs] ∧ KeepsRegsBut [x] s t ∧ t.reg x = nn) ∧
    (∃ t, EndsDone (.addImm x nn) s t (s.pc.toNat + 2) [.regs] ∧ KeepsRegsBut [x] s t ∧
      (t.reg x).toNat = ((s.reg x).toNat + nn.toNat) % 256) ∧
    (∃ t, EndsDone (.ldReg x y) s t (s.pc.toNat + 2) [.regs] ∧ KeepsRegsBut [x] s t ∧ t.reg x = s.reg y)

/-- R145 to R147: OR, AND and XOR bit by bit; no register but V[X] changes, so VF is not reset. -/
def Obligations.BitwiseOperations : Prop :=
  ∀ (s : State) (x y : Reg),
    decode (wordXYN 0x8#4 (regBits x) (regBits y) 0x1#4) = .orReg x y ∧
    decode (wordXYN 0x8#4 (regBits x) (regBits y) 0x2#4) = .andReg x y ∧
    decode (wordXYN 0x8#4 (regBits x) (regBits y) 0x3#4) = .xorReg x y ∧
    (∃ t, EndsDone (.orReg x y) s t (s.pc.toNat + 2) [.regs] ∧ KeepsRegsBut [x] s t ∧
      ∀ b, (t.reg x).getLsbD b = ((s.reg x).getLsbD b || (s.reg y).getLsbD b)) ∧
    (∃ t, EndsDone (.andReg x y) s t (s.pc.toNat + 2) [.regs] ∧ KeepsRegsBut [x] s t ∧
      ∀ b, (t.reg x).getLsbD b = ((s.reg x).getLsbD b && (s.reg y).getLsbD b)) ∧
    (∃ t, EndsDone (.xorReg x y) s t (s.pc.toNat + 2) [.regs] ∧ KeepsRegsBut [x] s t ∧
      ∀ b, (t.reg x).getLsbD b = ((s.reg x).getLsbD b != (s.reg y).getLsbD b))

/-- R148: 8XY4 writes the sum modulo 256, then the carry to VF, which wins when X = F; operands are the values before. -/
def Obligations.AddSetsCarryLast : Prop :=
  ∀ (s : State) (x y : Reg),
    decode (wordXYN 0x8#4 (regBits x) (regBits y) 0x4#4) = .addReg x y ∧
    ∃ t, EndsDone (.addReg x y) s t (s.pc.toNat + 2) [.regs] ∧ KeepsRegsBut [x, 0xF] s t ∧
      (x ≠ 0xF → (t.reg x).toNat = ((s.reg x).toNat + (s.reg y).toNat) % 256) ∧
      (t.reg 0xF).toNat = (if (s.reg x).toNat + (s.reg y).toNat > 255 then 1 else 0)

/-- R149, R151: 8XY5 and 8XY7 write the difference modulo 256, then no-borrow to VF, which wins when X = F; equal operands give
VF = 1. -/
def Obligations.SubtractionsSetNoBorrowLast : Prop :=
  ∀ (s : State) (x y : Reg),
    decode (wordXYN 0x8#4 (regBits x) (regBits y) 0x5#4) = .subReg x y ∧
    decode (wordXYN 0x8#4 (regBits x) (regBits y) 0x7#4) = .subnReg x y ∧
    (∃ t, EndsDone (.subReg x y) s t (s.pc.toNat + 2) [.regs] ∧ KeepsRegsBut [x, 0xF] s t ∧
      (x ≠ 0xF → (t.reg x).toNat = ((s.reg x).toNat + 256 - (s.reg y).toNat) % 256) ∧
      (t.reg 0xF).toNat = (if (s.reg x).toNat ≥ (s.reg y).toNat then 1 else 0)) ∧
    (∃ t, EndsDone (.subnReg x y) s t (s.pc.toNat + 2) [.regs] ∧ KeepsRegsBut [x, 0xF] s t ∧
      (x ≠ 0xF → (t.reg x).toNat = ((s.reg y).toNat + 256 - (s.reg x).toNat) % 256) ∧
      (t.reg 0xF).toNat = (if (s.reg y).toNat ≥ (s.reg x).toNat then 1 else 0))

/-- R150, R152: 8XY6 and 8XYE shift V[X] by one, for every ignored Y, then write the bit shifted out of the original value to VF, which
wins when X = F. -/
def Obligations.ShiftsSetShiftedOutBitLast : Prop :=
  ∀ (s : State) (x : Reg) (y : Nibble),
    decode (wordXYN 0x8#4 (regBits x) y 0x6#4) = .shr x y ∧ decode (wordXYN 0x8#4 (regBits x) y 0xE#4) = .shl x y ∧
    (∃ t, EndsDone (.shr x y) s t (s.pc.toNat + 2) [.regs] ∧ KeepsRegsBut [x, 0xF] s t ∧
      (x ≠ 0xF → (t.reg x).toNat = (s.reg x).toNat / 2) ∧ (t.reg 0xF).toNat = (s.reg x).toNat % 2) ∧
    (∃ t, EndsDone (.shl x y) s t (s.pc.toNat + 2) [.regs] ∧ KeepsRegsBut [x, 0xF] s t ∧
      (x ≠ 0xF → (t.reg x).toNat = 2 * (s.reg x).toNat % 256) ∧ (t.reg 0xF).toNat = (s.reg x).toNat / 128)

/-- R153: CXNN writes the sampled random byte masked by NN, for every random byte; no register but V[X] changes. -/
def Obligations.RandomByteIsMasked : Prop :=
  ∀ (s : State) (x : Reg) (nn : Byte),
    decode (wordXNN 0xC#4 (regBits x) nn) = .rnd x nn ∧
    ∃ t, EndsDone (.rnd x nn) s t (s.pc.toNat + 2) [.regs] ∧ KeepsRegsBut [x] s t ∧
      ∀ b, (t.reg x).getLsbD b = (s.inp.rand.getLsbD b && nn.getLsbD b)

/-! ## Display -/

/-- R170: CLS leaves every pixel unset, for any prior framebuffer, and changes nothing else. -/
def Obligations.ClearScreenUnsetsEveryPixel : Prop :=
  ∀ (s : State) (n : Nibble),
    decode (wordXNN 0x0#4 n 0xE0#8) = .cls n ∧
    ∃ t, EndsDone (.cls n) s t (s.pc.toNat + 2) [.screen] ∧ ∀ px py, px < 64 → py < 32 → t.fb.pixel px py = false

/-- R171, R172, R174, R175, R177: after DXYN every pixel is its old value XOR the sprite bit at its wrapped position, VF is 1 exactly when a
set pixel lies under a set sprite bit and else 0, coordinates and I are the values before (also when X or Y is F), and nothing else changes. -/
def Obligations.DrawXorsSpriteAndSetsCollision : Prop :=
  ∀ (s : State) (x y : Reg) (n : Fin 16),
    decode (wordXYN 0xD#4 (regBits x) (regBits y) (regBits n)) = .drw x y n ∧
    ∃ t, EndsDone (.drw x y n) s t (s.pc.toNat + 2) [.regs, .screen] ∧ KeepsRegsBut [0xF] s t ∧
      (∀ px py, px < 64 → py < 32 →
        (t.fb.pixel px py = true ↔ ¬ (s.fb.pixel px py = true ↔ SpriteCovers s x y n.val px py))) ∧
      ((t.reg 0xF).toNat = 0 ∨ (t.reg 0xF).toNat = 1) ∧
      ((t.reg 0xF).toNat = 1 ↔
        ∃ px py, px < 64 ∧ py < 32 ∧ s.fb.pixel px py = true ∧ SpriteCovers s x y n.val px py)

/-- R173: DXYN with N = 0 changes no pixel, sets VF to 0, and gives the same whatever memory holds. -/
def Obligations.DrawOfNoRowsOnlyClearsVF : Prop :=
  ∀ (s : State) (x y : Reg), ∃ t, EndsDone (.drw x y 0) s t (s.pc.toNat + 2) [.regs] ∧ KeepsRegsBut [0xF] s t ∧
    t.reg 0xF = 0 ∧ ∀ m : Memory, exec (.drw x y 0) (s.setMem m) = .next (t.setMem m)

/-- R176: a second draw of the same sprite at the same location, in any later state with the screen the first left and the same I, memory
and coordinates (by whatever registers), restores the framebuffer; it sets VF exactly when a pixel under a set sprite bit was unset before
the first draw. If every such pixel was set, and there is one, the first draw sets VF = 1 and the second VF = 0. -/
def Obligations.DrawTwiceRestoresScreen : Prop :=
  ∀ (s : State) (x y : Reg) (n : Fin 16), ∃ t, exec (.drw x y n) s = .next t ∧
    ((∀ px py, px < 64 → py < 32 → SpriteCovers s x y n.val px py → s.fb.pixel px py = true) →
      (∃ px py, SpriteCovers s x y n.val px py) → (t.reg 0xF).toNat = 1) ∧
    ∀ (t' : State) (x' y' : Reg), t'.fb = t.fb → t'.i = s.i → (∀ a, t'.mem.read a = s.mem.read a) →
      t'.reg x' = s.reg x → t'.reg y' = s.reg y →
      ∃ u, exec (.drw x' y' n) t' = .next u ∧
        (∀ px py, px < 64 → py < 32 → u.fb.pixel px py = s.fb.pixel px py) ∧
        ((u.reg 0xF).toNat = 1 ↔
          ∃ px py, px < 64 ∧ py < 32 ∧ s.fb.pixel px py = false ∧ SpriteCovers s x y n.val px py) ∧
        ((u.reg 0xF).toNat ≠ 1 → (u.reg 0xF).toNat = 0)

/-! ## Keypad -/

/-- R180 to R182: SKP and SKNP test the latched snapshot for a code up to 15 and `in.oor_pressed` above; nothing else changes. -/
def Obligations.KeySkipsTestSnapshot : Prop :=
  ∀ (s : State) (x : Reg) (p : Bool),
    ((s.reg x).toNat ≤ 15 → p = s.keys.getLsbD (s.reg x).toNat) → ((s.reg x).toNat ≥ 16 → p = s.inp.oorPressed) →
    decode (wordXNN 0xE#4 (regBits x) 0x9E#8) = .skp x ∧ decode (wordXNN 0xE#4 (regBits x) 0xA1#8) = .sknp x ∧
    (∃ t, EndsDone (.skp x) s t (s.pc.toNat + (if p = true then 4 else 2)) []) ∧
    (∃ t, EndsDone (.sknp x) s t (s.pc.toNat + (if p = true then 2 else 4)) [])

/-- R183, R113: FX0A with a key event completes at once with the key code in V[X]; without one it sets AWAIT and does nothing else (no tick,
PC kept), and from then on a step without an event leaves it waiting and a step with one completes it. -/
def Obligations.WaitForKeyCompletesOrSuspends : Prop :=
  ∀ (s : State) (x : Reg),
    decode (wordXNN 0xF#4 (regBits x) 0x0A#8) = .ldVxK x ∧
    (∀ k, s.inp.keyEvent = some k → ∃ t, EndsDone (.ldVxK x) s t (s.pc.toNat + 2) [.regs] ∧
      KeepsRegsBut [x] s t ∧ (t.reg x).toNat = k.val) ∧
    (s.inp.keyEvent = none → ∃ t, exec (.ldVxK x) s = .next t ∧ t.await = some x ∧ KeepsAllBut [.await] s t ∧
      (s.halted = false → ∀ a : StepIn,
        (a.keyEvent = none → ∃ u, stepWith a t = .next u ∧ KeepsAllBut [.keys, .environment] t u) ∧
        (∀ k, a.keyEvent = some k → ∃ u, stepWith a t = .next u ∧ u.await = none ∧ (u.reg x).toNat = k.val ∧
          u.pc.toNat = (s.pc.toNat + 2) % 65536 ∧ u.dt.toNat = tickedValue a.dtDue s.dt ∧
          u.st.toNat = tickedValue a.stDue s.st)))

/-! ## Timers -/

/-- R190 to R192: FX07 reads DT as it was before the tick; FX15 and FX18 write a timer whose new value is subject to this step's
tick; nothing else changes. -/
def Obligations.TimerInstructions : Prop :=
  ∀ (s : State) (x : Reg),
    decode (wordXNN 0xF#4 (regBits x) 0x07#8) = .ldVxDt x ∧ decode (wordXNN 0xF#4 (regBits x) 0x15#8) = .ldDtVx x ∧
    decode (wordXNN 0xF#4 (regBits x) 0x18#8) = .ldStVx x ∧
    (∃ t, EndsDone (.ldVxDt x) s t (s.pc.toNat + 2) [.regs] ∧ KeepsRegsBut [x] s t ∧ t.reg x = s.dt) ∧
    (∃ t, exec (.ldDtVx x) s = .next t ∧ t.pc.toNat = (s.pc.toNat + 2) % 65536 ∧
      t.dt.toNat = tickedValue s.inp.dtDue (s.reg x) ∧ t.st.toNat = tickedValue s.inp.stDue s.st ∧
      KeepsAllBut [.pc, .dt, .st] s t) ∧
    (∃ t, exec (.ldStVx x) s = .next t ∧ t.pc.toNat = (s.pc.toNat + 2) % 65536 ∧
      t.dt.toNat = tickedValue s.inp.dtDue s.dt ∧ t.st.toNat = tickedValue s.inp.stDue (s.reg x) ∧
      KeepsAllBut [.pc, .dt, .st] s t)

/-! ## Index register and memory -/

/-- R200 to R202: ANNN, FX1E (modulo 65536, no flag) and FX29 (five times the whole register) write I and nothing else. -/
def Obligations.IndexInstructions : Prop :=
  ∀ (s : State) (x : Reg) (nnn : Addr12),
    decode (wordNNN 0xA#4 nnn) = .ldI nnn ∧ decode (wordXNN 0xF#4 (regBits x) 0x1E#8) = .addI x ∧
    decode (wordXNN 0xF#4 (regBits x) 0x29#8) = .ldF x ∧
    (∃ t, EndsDone (.ldI nnn) s t (s.pc.toNat + 2) [.index] ∧ t.i.toNat = nnn.toNat) ∧
    (∃ t, EndsDone (.addI x) s t (s.pc.toNat + 2) [.index] ∧
      t.i.toNat = (s.i.toNat + (s.reg x).toNat) % 65536) ∧
    (∃ t, EndsDone (.ldF x) s t (s.pc.toNat + 2) [.index] ∧ t.i.toNat = 5 * (s.reg x).toNat)

/-- R203: FX33 writes the hundreds, tens and ones of V[X] at I, I + 1, I + 2 (modulo 4096); every other byte of memory and everything
else is unchanged, I among them. -/
def Obligations.BcdWritesThreeDigits : Prop :=
  ∀ (s : State) (x : Reg), s.mem.wf = true →
    decode (wordXNN 0xF#4 (regBits x) 0x33#8) = .ldB x ∧
    ∃ t, EndsDone (.ldB x) s t (s.pc.toNat + 2) [.memory] ∧
      (t.mem.read s.i.toNat).toNat = (s.reg x).toNat / 100 ∧
      (t.mem.read (s.i.toNat + 1)).toNat = (s.reg x).toNat / 10 % 10 ∧
      (t.mem.read (s.i.toNat + 2)).toNat = (s.reg x).toNat % 10 ∧
      ∀ c, (∀ k, k < 3 → effAddr c ≠ effAddr (s.i.toNat + k)) → t.mem.read c = s.mem.read c

/-- R204: FX55 writes V0 to V(X − 1) at I up (modulo 4096), V[X] not among them; every other byte of memory and everything else is
unchanged, I among them. -/
def Obligations.DumpStoresRegistersBelowX : Prop :=
  ∀ (s : State) (x : Reg), s.mem.wf = true →
    decode (wordXNN 0xF#4 (regBits x) 0x55#8) = .ldMemVx x ∧
    ∃ t, EndsDone (.ldMemVx x) s t (s.pc.toNat + 2) [.memory] ∧
      (∀ r : Reg, r < x → t.mem.read (s.i.toNat + r.val) = s.reg r) ∧
      ∀ c, (∀ k, k < x.val → effAddr c ≠ effAddr (s.i.toNat + k)) → t.mem.read c = s.mem.read c

/-- R205: FX65 loads V0 to V[X] from I up (modulo 4096); the other registers and everything else are unchanged, I among them. -/
def Obligations.LoadFillsRegistersThroughX : Prop :=
  ∀ (s : State) (x : Reg),
    decode (wordXNN 0xF#4 (regBits x) 0x65#8) = .ldVxMem x ∧
    ∃ t, EndsDone (.ldVxMem x) s t (s.pc.toNat + 2) [.regs] ∧
      ∀ r : Reg, t.reg r = if r ≤ x then s.mem.read (s.i.toNat + r.val) else s.reg r

/-- R206: FX55 then, later, FX65 with the same X on the memory and I the dump left: V0 to V(X − 1) are restored and V[X] is the byte at
I + X, which the dump did not write. -/
def Obligations.DumpThenLoadIsAsymmetric : Prop :=
  ∀ (s : State) (x : Reg), s.mem.wf = true → ∃ t, exec (.ldMemVx x) s = .next t ∧
    ∀ t' : State, t'.i = t.i → t'.mem = t.mem → ∃ u, exec (.ldVxMem x) t' = .next u ∧
      (∀ r : Reg, r < x → u.reg r = s.reg r) ∧ u.reg x = s.mem.read (s.i.toNat + x.val)

/-! ## SYS and the ignored words -/

/-- R110, R111: a SYS or ignored word changes nothing but the timers (the tick) and PC, which advances by 2. -/
def Obligations.SysAndIgnoredWordsOnlyAdvance : Prop :=
  ∀ (s : State) (nnn : Addr12) (x y n : Nibble) (nn : Byte),
    (nnn.extractLsb' 0 8 ≠ 0xE0#8 → nnn.extractLsb' 0 8 ≠ 0xEE#8 → decode (wordNNN 0x0#4 nnn) = .sys nnn) ∧
    (8 ≤ n.toNat → n ≠ 0xE#4 → decode (wordXYN 0x8#4 x y n) = .ignored8 x y n) ∧
    (nn ≠ 0x9E#8 → nn ≠ 0xA1#8 → decode (wordXNN 0xE#4 x nn) = .ignoredE x nn) ∧
    (nn ∉ familyFBytes → decode (wordXNN 0xF#4 x nn) = .ignoredF x nn) ∧
    (∃ t, EndsDone (.sys nnn) s t (s.pc.toNat + 2) []) ∧
    (∃ t, EndsDone (.ignored8 x y n) s t (s.pc.toNat + 2) []) ∧
    (∃ t, EndsDone (.ignoredE x nn) s t (s.pc.toNat + 2) []) ∧
    (∃ t, EndsDone (.ignoredF x nn) s t (s.pc.toNat + 2) [])

/-! ## Rules over all instructions -/

/-- Each instruction changes no part of the state but PC, the timers and the parts its rule names (`mayChange`): the stack by CALL and
RET only (R30), the framebuffer by CLS and DRW only (R34), I by ANNN, FX1E and FX29 only (R207), memory by FX33 and FX55 only (R51, which the spec
derives; at which addresses, the statements of FX33 and FX55 say), AWAIT by FX0A only (R36), HALTED and FAULT by CALL and RET only (R37), KEYS
(R35) and the bit of the load port by none. -/
def Obligations.InstructionsChangeOnlyTheirParts : Prop :=
  ∀ (i : Instr) (s : State), ∃ t, exec i s = .next t ∧ KeepsAllBut (.pc :: .dt :: .st :: mayChange i) s t

/-- Each instruction writes no data register but those of the `writes` column of R24 (`writesReg`); so VF is written as a side effect by the
six instructions of R22 only. -/
def Obligations.InstructionsWriteOnlyTheirRegisters : Prop :=
  ∀ (i : Instr) (s : State), ∃ t, exec i s = .next t ∧ ∀ r : Reg, ¬ writesReg i r → t.reg r = s.reg r

/-- Each instruction depends on no input of its step but those of the `used by` column of R101 (`sameInputs`): with a record that agrees on
them the outcome is the same, but for the record itself. -/
def Obligations.InstructionsReadOnlyTheirInputs : Prop :=
  ∀ (i : Instr) (s : State) (a : StepIn), sameInputs i a s.inp →
    ∃ t, exec i s = .next t ∧ exec i (s.setInp a) = .next (t.setInp a)

/-- No instruction depends on a part of the state that its rule does not use (`readsReg`, `writesReg`, `usedParts`): put other contents in such a
part, and the outcome is the same with these contents. This is said of every part: each data register, I, PC, SP with the stack, DT and ST
(where the outcome agrees in all but that timer, which the tick changes), memory, the framebuffer, KEYS, AWAIT, HALTED with FAULT,
load_error and the model's records yet to come; the sampled record is the statement before this one. -/
def Obligations.InstructionsReadOnlyTheirParts : Prop :=
  ∀ (i : Instr) (s : State), ∃ t, exec i s = .next t ∧
    (∀ r b, ¬ readsReg i r → ¬ writesReg i r → exec i (s.setReg r b) = .next (t.setReg r b)) ∧
    (.index ∉ usedParts i → ∀ a, exec i (s.setI a) = .next (t.setI a)) ∧
    (.pc ∉ usedParts i → ∀ p, exec i { s with pc := p } = .next t) ∧
    (.stack ∉ usedParts i → ∀ p st, exec i { s with sp := p, stack := st } = .next { t with sp := p, stack := st }) ∧
    (.dt ∉ usedParts i → ∀ b, ∃ u, exec i (s.setDt b) = .next u ∧ KeepsAllBut [.dt] t u) ∧
    (.st ∉ usedParts i → ∀ b, ∃ u, exec i (s.setSt b) = .next u ∧ KeepsAllBut [.st] t u) ∧
    (.memory ∉ usedParts i → ∀ m, exec i (s.setMem m) = .next (t.setMem m)) ∧
    (.screen ∉ usedParts i → ∀ f, exec i (s.setFb f) = .next (t.setFb f)) ∧
    (.keys ∉ usedParts i → ∀ k, exec i { s with keys := k } = .next { t with keys := k }) ∧
    (.await ∉ usedParts i → ∀ w, exec i { s with await := w } = .next { t with await := w }) ∧
    (.faultLatch ∉ usedParts i →
      ∀ h f, exec i { s with halted := h, fault := f } = .next { t with halted := h, fault := f }) ∧
    (.loadError ∉ usedParts i → ∀ e, exec i { s with loadError := e } = .next { t with loadError := e }) ∧
    ∀ l n, exec i { s with inputs := l, draws := n } = .next { t with inputs := l, draws := n }

/-- Two memories in canonical form that read the same at every address are the same data. The canonical form is the model's own choice of
representation (assumption 6); the spec says nothing of it. -/
def Obligations.CanonicalMemoryIsUnique : Prop :=
  ∀ m m' : Memory, m.wf = true → m'.wf = true → (∀ a, a < 4096 → m.read a = m'.read a) → m = m'

/-! ## Reset and load -/

/-- R41: the reset state, item by item, for every value of the parameter FONT; memory holds FONT at 0x000 to 0x04F and 0 from 0x050 to 0xFFF.
`State.reset` is this state at the default FONT. -/
def Obligations.ResetStateValues : Prop :=
  (∀ f : Font, ∃ s : State, s = State.resetWith f ∧
    (∀ r, s.reg r = 0) ∧ s.i = 0 ∧ s.pc = 0x200 ∧ spValue s.sp = -1 ∧ spField s.sp = 0xFF ∧ (∀ k, s.entry k = 0) ∧
    s.dt = 0 ∧ s.st = 0 ∧ (∀ x y, x < 64 → y < 32 → s.fb.pixel x y = false) ∧
    (∀ a (h : a < 80), s.mem.read a = f[a]) ∧ (∀ a, 80 ≤ a → a < 4096 → s.mem.read a = 0) ∧
    (∀ k, s.keys.getLsbD k = false) ∧ s.await = none ∧ s.halted = false ∧ s.fault = none) ∧
  State.reset = State.resetWith defaultFont

/-- R261 to R264: load resets everything, with the machine's FONT; an image of at most 3584 bytes is then copied verbatim to 0x200 up, the rest
of memory being as at reset, and load answers ok and clears load_error (an empty image gives the reset state, the model's record of inputs
apart); a longer image leaves the reset state, sets load_error and is answered TooLarge. -/
def Obligations.LoadResetsThenCopiesImage : Prop :=
  ∀ (image : List Byte) (s : State) (f : Font), ∃ t, t = (load image s f).1 ∧
    KeepsAllBut [.memory, .environment, .loadError] (State.resetWith f) t ∧
    (image.length ≤ 4096 - 0x200 → (load image s f).2 = .ok ∧ t.loadError = false ∧
      (∀ k (h : k < image.length), t.mem.read (0x200 + k) = image[k]) ∧
      (∀ a, a < 4096 → (a < 0x200 ∨ 0x200 + image.length ≤ a) → t.mem.read a = (State.resetWith f).mem.read a)) ∧
    (image = [] → t = { State.resetWith f with inp := t.inp, inputs := t.inputs, draws := t.draws }) ∧
    (4096 - 0x200 < image.length → (load image s f).2 = .tooLarge ∧ t.loadError = true ∧
      ∀ a, t.mem.read a = (State.resetWith f).mem.read a)

/-! ## The input records -/

/-- R101: every step, a halted one too, takes exactly one input record: the oldest one put up for it, or a draw under no law; none is left over for a
later step. -/
def Obligations.EveryStepTakesOneInputRecord : Prop :=
  ∀ s : State, ∃ t, step s = .next t ∧ t.inp = s.nextInput ∧ t.inputs = s.inputs.tail ∧
    t.draws = s.draws + (if s.inputs = [] then 1 else 0)

/-- R184: a key event presented in a step where the core is halted, or neither executes FX0A nor waits, is ignored and not queued: with any other event, or
none, the step is the same but for the record, whose events no later step can read, whether it is preceded by a load or not. -/
def Obligations.UnusedKeyEventsAreNotQueued : Prop :=
  ∀ (s : State) (a : StepIn) (e : Option Key),
    (s.halted = true ∨ (s.await = none ∧ ∀ x, decode (fetchWord s) ≠ .ldVxK x)) →
    ∃ t, stepWith a s = .next t ∧ stepWith { a with keyEvent := e } s = .next (t.setInp { a with keyEvent := e }) ∧
      t.inputs = s.inputs ∧ (∀ b, step (t.setInp b) = step t) ∧
      ∀ (b : StepIn) (image : List Byte) (f : Font), step (load image (t.setInp b) f).1 = step (load image t f).1
end

