-- ==== Sys2Proof/Laws/Decode.lean ====
section
/-! SUPPORT. The fields of an encoded word, and the bytes of a word. -/

namespace Sys2Proof

/-- A word is its two bytes, high byte first (R53). -/
theorem wordOfBytes_high_low (w : Word) : wordOfBytes (highByte w) (lowByte w) = w := by
  apply BitVec.eq_of_getLsbD_eq
  intro j hj
  simp only [wordOfBytes, highByte, lowByte, BitVec.getLsbD_append, BitVec.getLsbD_extractLsb']
  split
  · simp [*]
  · have : j - 8 < 8 := by omega
    simp [this, show 8 + (j - 8) = j by omega]

@[simp] theorem highByte_wordOfBytes (hi lo : Byte) : highByte (wordOfBytes hi lo) = hi := by
  apply BitVec.eq_of_getLsbD_eq; intro j hj
  simp only [highByte, wordOfBytes, BitVec.getLsbD_append, BitVec.getLsbD_extractLsb', hj, decide_true, Bool.true_and]
  rw [if_neg (by omega), show 8 + j - 8 = j by omega]

@[simp] theorem lowByte_wordOfBytes (hi lo : Byte) : lowByte (wordOfBytes hi lo) = lo := by
  apply BitVec.eq_of_getLsbD_eq; intro j hj
  simp only [lowByte, wordOfBytes, BitVec.getLsbD_append, BitVec.getLsbD_extractLsb', hj, decide_true, Bool.true_and]
  rw [if_pos (by omega), show 0 + j = j by omega]

@[simp] theorem regOf_regBits (r : Fin 16) : regOf (regBits r) = r := by
  simp [regOf, regBits]

@[simp] theorem regBits_regOf (b : Nibble) : regBits (regOf b) = b := by
  simp [regOf, regBits]

/-! ### The fields of the three word forms -/

@[simp] theorem fieldF_wordXNN (f x : Nibble) (nn : Byte) : fieldF (wordXNN f x nn) = f := by
  apply BitVec.eq_of_getLsbD_eq; intro j hj
  simp only [fieldF, wordXNN, BitVec.getLsbD_append, BitVec.getLsbD_extractLsb', hj, decide_true, Bool.true_and]
  rw [if_neg (by omega), if_neg (by omega), show 12 + j - 8 - 4 = j by omega]

@[simp] theorem fieldX_wordXNN (f x : Nibble) (nn : Byte) : fieldX (wordXNN f x nn) = x := by
  apply BitVec.eq_of_getLsbD_eq; intro j hj
  simp only [fieldX, wordXNN, BitVec.getLsbD_append, BitVec.getLsbD_extractLsb', hj, decide_true, Bool.true_and]
  rw [if_neg (by omega), if_pos (by omega), show 8 + j - 8 = j by omega]

@[simp] theorem fieldNN_wordXNN (f x : Nibble) (nn : Byte) : fieldNN (wordXNN f x nn) = nn := by
  apply BitVec.eq_of_getLsbD_eq; intro j hj
  simp only [fieldNN, wordXNN, BitVec.getLsbD_append, BitVec.getLsbD_extractLsb', hj, decide_true, Bool.true_and]
  rw [if_pos (by omega), show 0 + j = j by omega]

@[simp] theorem fieldF_wordXYN (f x y n : Nibble) : fieldF (wordXYN f x y n) = f := by
  apply BitVec.eq_of_getLsbD_eq; intro j hj
  simp only [fieldF, wordXYN, BitVec.getLsbD_append, BitVec.getLsbD_extractLsb', hj, decide_true, Bool.true_and]
  rw [if_neg (by omega), if_neg (by omega), if_neg (by omega), show 12 + j - 4 - 4 - 4 = j by omega]

@[simp] theorem fieldX_wordXYN (f x y n : Nibble) : fieldX (wordXYN f x y n) = x := by
  apply BitVec.eq_of_getLsbD_eq; intro j hj
  simp only [fieldX, wordXYN, BitVec.getLsbD_append, BitVec.getLsbD_extractLsb', hj, decide_true, Bool.true_and]
  rw [if_neg (by omega), if_neg (by omega), if_pos (by omega), show 8 + j - 4 - 4 = j by omega]

@[simp] theorem fieldY_wordXYN (f x y n : Nibble) : fieldY (wordXYN f x y n) = y := by
  apply BitVec.eq_of_getLsbD_eq; intro j hj
  simp only [fieldY, wordXYN, BitVec.getLsbD_append, BitVec.getLsbD_extractLsb', hj, decide_true, Bool.true_and]
  rw [if_neg (by omega), if_pos (by omega), show 4 + j - 4 = j by omega]

@[simp] theorem fieldN_wordXYN (f x y n : Nibble) : fieldN (wordXYN f x y n) = n := by
  apply BitVec.eq_of_getLsbD_eq; intro j hj
  simp only [fieldN, wordXYN, BitVec.getLsbD_append, BitVec.getLsbD_extractLsb', hj, decide_true, Bool.true_and]
  rw [if_pos (by omega), show 0 + j = j by omega]

@[simp] theorem fieldF_wordNNN (f : Nibble) (nnn : Addr12) : fieldF (wordNNN f nnn) = f := by
  apply BitVec.eq_of_getLsbD_eq; intro j hj
  simp only [fieldF, wordNNN, BitVec.getLsbD_append, BitVec.getLsbD_extractLsb', hj, decide_true, Bool.true_and]
  rw [if_neg (by omega), show 12 + j - 12 = j by omega]

@[simp] theorem fieldNNN_wordNNN (f : Nibble) (nnn : Addr12) : fieldNNN (wordNNN f nnn) = nnn := by
  apply BitVec.eq_of_getLsbD_eq; intro j hj
  simp only [fieldNNN, wordNNN, BitVec.getLsbD_append, BitVec.getLsbD_extractLsb', hj, decide_true, Bool.true_and]
  rw [if_pos (by omega), show 0 + j = j by omega]

@[simp] theorem fieldNN_wordNNN (f : Nibble) (nnn : Addr12) : fieldNN (wordNNN f nnn) = nnn.extractLsb' 0 8 := by
  apply BitVec.eq_of_getLsbD_eq; intro j hj
  simp only [fieldNN, wordNNN, BitVec.getLsbD_append, BitVec.getLsbD_extractLsb', hj, decide_true, Bool.true_and]
  rw [if_pos (by omega)]

/-! ### A word is made of its fields (R72) -/

theorem wordXNN_fields (w : Word) : wordXNN (fieldF w) (fieldX w) (fieldNN w) = w := by
  apply BitVec.eq_of_getLsbD_eq; intro j hj
  simp only [wordXNN, fieldF, fieldX, fieldNN, BitVec.getLsbD_append, BitVec.getLsbD_extractLsb']
  interval_cases j <;> simp

theorem wordXYN_fields (w : Word) : wordXYN (fieldF w) (fieldX w) (fieldY w) (fieldN w) = w := by
  apply BitVec.eq_of_getLsbD_eq; intro j hj
  simp only [wordXYN, fieldF, fieldX, fieldY, fieldN, BitVec.getLsbD_append, BitVec.getLsbD_extractLsb']
  interval_cases j <;> simp

theorem wordNNN_fields (w : Word) : wordNNN (fieldF w) (fieldNNN w) = w := by
  apply BitVec.eq_of_getLsbD_eq; intro j hj
  simp only [wordNNN, fieldF, fieldNNN, BitVec.getLsbD_append, BitVec.getLsbD_extractLsb']
  interval_cases j <;> simp

@[simp] theorem fieldNNN_low (w : Word) : (fieldNNN w).extractLsb' 0 8 = fieldNN w := by
  apply BitVec.eq_of_getLsbD_eq; intro j hj
  simp [fieldNN, fieldNNN, BitVec.getLsbD_extractLsb']

end Sys2Proof
end

