-- ==== Sys2Proof/Laws/State.lean ====
section
/-! SUPPORT. For every named update of State, what it leaves in each field: one lemma per field per update, so that no proof
unfolds a record update. -/

namespace Sys2Proof.Machine

/-! ### `State.setReg` -/

@[simp] theorem setReg_i (s : State) (x : Reg) (b : Byte) : (s.setReg x b).i = s.i := rfl
@[simp] theorem setReg_pc (s : State) (x : Reg) (b : Byte) : (s.setReg x b).pc = s.pc := rfl
@[simp] theorem setReg_sp (s : State) (x : Reg) (b : Byte) : (s.setReg x b).sp = s.sp := rfl
@[simp] theorem setReg_stack (s : State) (x : Reg) (b : Byte) : (s.setReg x b).stack = s.stack := rfl
@[simp] theorem setReg_dt (s : State) (x : Reg) (b : Byte) : (s.setReg x b).dt = s.dt := rfl
@[simp] theorem setReg_st (s : State) (x : Reg) (b : Byte) : (s.setReg x b).st = s.st := rfl
@[simp] theorem setReg_mem (s : State) (x : Reg) (b : Byte) : (s.setReg x b).mem = s.mem := rfl
@[simp] theorem setReg_fb (s : State) (x : Reg) (b : Byte) : (s.setReg x b).fb = s.fb := rfl
@[simp] theorem setReg_keys (s : State) (x : Reg) (b : Byte) : (s.setReg x b).keys = s.keys := rfl
@[simp] theorem setReg_await (s : State) (x : Reg) (b : Byte) : (s.setReg x b).await = s.await := rfl
@[simp] theorem setReg_halted (s : State) (x : Reg) (b : Byte) : (s.setReg x b).halted = s.halted := rfl
@[simp] theorem setReg_fault (s : State) (x : Reg) (b : Byte) : (s.setReg x b).fault = s.fault := rfl
@[simp] theorem setReg_loadError (s : State) (x : Reg) (b : Byte) : (s.setReg x b).loadError = s.loadError := rfl
@[simp] theorem setReg_inp (s : State) (x : Reg) (b : Byte) : (s.setReg x b).inp = s.inp := rfl
@[simp] theorem setReg_inputs (s : State) (x : Reg) (b : Byte) : (s.setReg x b).inputs = s.inputs := rfl
@[simp] theorem setReg_draws (s : State) (x : Reg) (b : Byte) : (s.setReg x b).draws = s.draws := rfl
@[simp] theorem setReg_entry (s : State) (x : Reg) (b : Byte) (j : Fin 16) : (s.setReg x b).entry j = s.entry j := rfl

/-! ### `State.setI` -/

@[simp] theorem setI_v (s : State) (a : Addr) : (s.setI a).v = s.v := rfl
@[simp] theorem setI_i (s : State) (a : Addr) : (s.setI a).i = a := rfl
@[simp] theorem setI_pc (s : State) (a : Addr) : (s.setI a).pc = s.pc := rfl
@[simp] theorem setI_sp (s : State) (a : Addr) : (s.setI a).sp = s.sp := rfl
@[simp] theorem setI_stack (s : State) (a : Addr) : (s.setI a).stack = s.stack := rfl
@[simp] theorem setI_dt (s : State) (a : Addr) : (s.setI a).dt = s.dt := rfl
@[simp] theorem setI_st (s : State) (a : Addr) : (s.setI a).st = s.st := rfl
@[simp] theorem setI_mem (s : State) (a : Addr) : (s.setI a).mem = s.mem := rfl
@[simp] theorem setI_fb (s : State) (a : Addr) : (s.setI a).fb = s.fb := rfl
@[simp] theorem setI_keys (s : State) (a : Addr) : (s.setI a).keys = s.keys := rfl
@[simp] theorem setI_await (s : State) (a : Addr) : (s.setI a).await = s.await := rfl
@[simp] theorem setI_halted (s : State) (a : Addr) : (s.setI a).halted = s.halted := rfl
@[simp] theorem setI_fault (s : State) (a : Addr) : (s.setI a).fault = s.fault := rfl
@[simp] theorem setI_loadError (s : State) (a : Addr) : (s.setI a).loadError = s.loadError := rfl
@[simp] theorem setI_inp (s : State) (a : Addr) : (s.setI a).inp = s.inp := rfl
@[simp] theorem setI_inputs (s : State) (a : Addr) : (s.setI a).inputs = s.inputs := rfl
@[simp] theorem setI_draws (s : State) (a : Addr) : (s.setI a).draws = s.draws := rfl
@[simp] theorem setI_reg (s : State) (a : Addr) (r : Reg) : (s.setI a).reg r = s.reg r := rfl
@[simp] theorem setI_entry (s : State) (a : Addr) (j : Fin 16) : (s.setI a).entry j = s.entry j := rfl

/-! ### `State.setDt` -/

@[simp] theorem setDt_v (s : State) (b : Byte) : (s.setDt b).v = s.v := rfl
@[simp] theorem setDt_i (s : State) (b : Byte) : (s.setDt b).i = s.i := rfl
@[simp] theorem setDt_pc (s : State) (b : Byte) : (s.setDt b).pc = s.pc := rfl
@[simp] theorem setDt_sp (s : State) (b : Byte) : (s.setDt b).sp = s.sp := rfl
@[simp] theorem setDt_stack (s : State) (b : Byte) : (s.setDt b).stack = s.stack := rfl
@[simp] theorem setDt_dt (s : State) (b : Byte) : (s.setDt b).dt = b := rfl
@[simp] theorem setDt_st (s : State) (b : Byte) : (s.setDt b).st = s.st := rfl
@[simp] theorem setDt_mem (s : State) (b : Byte) : (s.setDt b).mem = s.mem := rfl
@[simp] theorem setDt_fb (s : State) (b : Byte) : (s.setDt b).fb = s.fb := rfl
@[simp] theorem setDt_keys (s : State) (b : Byte) : (s.setDt b).keys = s.keys := rfl
@[simp] theorem setDt_await (s : State) (b : Byte) : (s.setDt b).await = s.await := rfl
@[simp] theorem setDt_halted (s : State) (b : Byte) : (s.setDt b).halted = s.halted := rfl
@[simp] theorem setDt_fault (s : State) (b : Byte) : (s.setDt b).fault = s.fault := rfl
@[simp] theorem setDt_loadError (s : State) (b : Byte) : (s.setDt b).loadError = s.loadError := rfl
@[simp] theorem setDt_inp (s : State) (b : Byte) : (s.setDt b).inp = s.inp := rfl
@[simp] theorem setDt_inputs (s : State) (b : Byte) : (s.setDt b).inputs = s.inputs := rfl
@[simp] theorem setDt_draws (s : State) (b : Byte) : (s.setDt b).draws = s.draws := rfl
@[simp] theorem setDt_reg (s : State) (b : Byte) (r : Reg) : (s.setDt b).reg r = s.reg r := rfl
@[simp] theorem setDt_entry (s : State) (b : Byte) (j : Fin 16) : (s.setDt b).entry j = s.entry j := rfl

/-! ### `State.setSt` -/

@[simp] theorem setSt_v (s : State) (b : Byte) : (s.setSt b).v = s.v := rfl
@[simp] theorem setSt_i (s : State) (b : Byte) : (s.setSt b).i = s.i := rfl
@[simp] theorem setSt_pc (s : State) (b : Byte) : (s.setSt b).pc = s.pc := rfl
@[simp] theorem setSt_sp (s : State) (b : Byte) : (s.setSt b).sp = s.sp := rfl
@[simp] theorem setSt_stack (s : State) (b : Byte) : (s.setSt b).stack = s.stack := rfl
@[simp] theorem setSt_dt (s : State) (b : Byte) : (s.setSt b).dt = s.dt := rfl
@[simp] theorem setSt_st (s : State) (b : Byte) : (s.setSt b).st = b := rfl
@[simp] theorem setSt_mem (s : State) (b : Byte) : (s.setSt b).mem = s.mem := rfl
@[simp] theorem setSt_fb (s : State) (b : Byte) : (s.setSt b).fb = s.fb := rfl
@[simp] theorem setSt_keys (s : State) (b : Byte) : (s.setSt b).keys = s.keys := rfl
@[simp] theorem setSt_await (s : State) (b : Byte) : (s.setSt b).await = s.await := rfl
@[simp] theorem setSt_halted (s : State) (b : Byte) : (s.setSt b).halted = s.halted := rfl
@[simp] theorem setSt_fault (s : State) (b : Byte) : (s.setSt b).fault = s.fault := rfl
@[simp] theorem setSt_loadError (s : State) (b : Byte) : (s.setSt b).loadError = s.loadError := rfl
@[simp] theorem setSt_inp (s : State) (b : Byte) : (s.setSt b).inp = s.inp := rfl
@[simp] theorem setSt_inputs (s : State) (b : Byte) : (s.setSt b).inputs = s.inputs := rfl
@[simp] theorem setSt_draws (s : State) (b : Byte) : (s.setSt b).draws = s.draws := rfl
@[simp] theorem setSt_reg (s : State) (b : Byte) (r : Reg) : (s.setSt b).reg r = s.reg r := rfl
@[simp] theorem setSt_entry (s : State) (b : Byte) (j : Fin 16) : (s.setSt b).entry j = s.entry j := rfl

/-! ### `State.setMem` -/

@[simp] theorem setMem_v (s : State) (m : Memory) : (s.setMem m).v = s.v := rfl
@[simp] theorem setMem_i (s : State) (m : Memory) : (s.setMem m).i = s.i := rfl
@[simp] theorem setMem_pc (s : State) (m : Memory) : (s.setMem m).pc = s.pc := rfl
@[simp] theorem setMem_sp (s : State) (m : Memory) : (s.setMem m).sp = s.sp := rfl
@[simp] theorem setMem_stack (s : State) (m : Memory) : (s.setMem m).stack = s.stack := rfl
@[simp] theorem setMem_dt (s : State) (m : Memory) : (s.setMem m).dt = s.dt := rfl
@[simp] theorem setMem_st (s : State) (m : Memory) : (s.setMem m).st = s.st := rfl
@[simp] theorem setMem_mem (s : State) (m : Memory) : (s.setMem m).mem = m := rfl
@[simp] theorem setMem_fb (s : State) (m : Memory) : (s.setMem m).fb = s.fb := rfl
@[simp] theorem setMem_keys (s : State) (m : Memory) : (s.setMem m).keys = s.keys := rfl
@[simp] theorem setMem_await (s : State) (m : Memory) : (s.setMem m).await = s.await := rfl
@[simp] theorem setMem_halted (s : State) (m : Memory) : (s.setMem m).halted = s.halted := rfl
@[simp] theorem setMem_fault (s : State) (m : Memory) : (s.setMem m).fault = s.fault := rfl
@[simp] theorem setMem_loadError (s : State) (m : Memory) : (s.setMem m).loadError = s.loadError := rfl
@[simp] theorem setMem_inp (s : State) (m : Memory) : (s.setMem m).inp = s.inp := rfl
@[simp] theorem setMem_inputs (s : State) (m : Memory) : (s.setMem m).inputs = s.inputs := rfl
@[simp] theorem setMem_draws (s : State) (m : Memory) : (s.setMem m).draws = s.draws := rfl
@[simp] theorem setMem_reg (s : State) (m : Memory) (r : Reg) : (s.setMem m).reg r = s.reg r := rfl
@[simp] theorem setMem_entry (s : State) (m : Memory) (j : Fin 16) : (s.setMem m).entry j = s.entry j := rfl

/-! ### `State.setFb` -/

@[simp] theorem setFb_v (s : State) (f : Framebuffer) : (s.setFb f).v = s.v := rfl
@[simp] theorem setFb_i (s : State) (f : Framebuffer) : (s.setFb f).i = s.i := rfl
@[simp] theorem setFb_pc (s : State) (f : Framebuffer) : (s.setFb f).pc = s.pc := rfl
@[simp] theorem setFb_sp (s : State) (f : Framebuffer) : (s.setFb f).sp = s.sp := rfl
@[simp] theorem setFb_stack (s : State) (f : Framebuffer) : (s.setFb f).stack = s.stack := rfl
@[simp] theorem setFb_dt (s : State) (f : Framebuffer) : (s.setFb f).dt = s.dt := rfl
@[simp] theorem setFb_st (s : State) (f : Framebuffer) : (s.setFb f).st = s.st := rfl
@[simp] theorem setFb_mem (s : State) (f : Framebuffer) : (s.setFb f).mem = s.mem := rfl
@[simp] theorem setFb_fb (s : State) (f : Framebuffer) : (s.setFb f).fb = f := rfl
@[simp] theorem setFb_keys (s : State) (f : Framebuffer) : (s.setFb f).keys = s.keys := rfl
@[simp] theorem setFb_await (s : State) (f : Framebuffer) : (s.setFb f).await = s.await := rfl
@[simp] theorem setFb_halted (s : State) (f : Framebuffer) : (s.setFb f).halted = s.halted := rfl
@[simp] theorem setFb_fault (s : State) (f : Framebuffer) : (s.setFb f).fault = s.fault := rfl
@[simp] theorem setFb_loadError (s : State) (f : Framebuffer) : (s.setFb f).loadError = s.loadError := rfl
@[simp] theorem setFb_inp (s : State) (f : Framebuffer) : (s.setFb f).inp = s.inp := rfl
@[simp] theorem setFb_inputs (s : State) (f : Framebuffer) : (s.setFb f).inputs = s.inputs := rfl
@[simp] theorem setFb_draws (s : State) (f : Framebuffer) : (s.setFb f).draws = s.draws := rfl
@[simp] theorem setFb_reg (s : State) (f : Framebuffer) (r : Reg) : (s.setFb f).reg r = s.reg r := rfl
@[simp] theorem setFb_entry (s : State) (f : Framebuffer) (j : Fin 16) : (s.setFb f).entry j = s.entry j := rfl

/-! ### `State.push` -/

@[simp] theorem push_v (s : State) (k : Fin 16) (a : Addr) : (s.push k a).v = s.v := rfl
@[simp] theorem push_i (s : State) (k : Fin 16) (a : Addr) : (s.push k a).i = s.i := rfl
@[simp] theorem push_pc (s : State) (k : Fin 16) (a : Addr) : (s.push k a).pc = s.pc := rfl
@[simp] theorem push_sp (s : State) (k : Fin 16) (a : Addr) : (s.push k a).sp = some k := rfl
@[simp] theorem push_dt (s : State) (k : Fin 16) (a : Addr) : (s.push k a).dt = s.dt := rfl
@[simp] theorem push_st (s : State) (k : Fin 16) (a : Addr) : (s.push k a).st = s.st := rfl
@[simp] theorem push_mem (s : State) (k : Fin 16) (a : Addr) : (s.push k a).mem = s.mem := rfl
@[simp] theorem push_fb (s : State) (k : Fin 16) (a : Addr) : (s.push k a).fb = s.fb := rfl
@[simp] theorem push_keys (s : State) (k : Fin 16) (a : Addr) : (s.push k a).keys = s.keys := rfl
@[simp] theorem push_await (s : State) (k : Fin 16) (a : Addr) : (s.push k a).await = s.await := rfl
@[simp] theorem push_halted (s : State) (k : Fin 16) (a : Addr) : (s.push k a).halted = s.halted := rfl
@[simp] theorem push_fault (s : State) (k : Fin 16) (a : Addr) : (s.push k a).fault = s.fault := rfl
@[simp] theorem push_loadError (s : State) (k : Fin 16) (a : Addr) : (s.push k a).loadError = s.loadError := rfl
@[simp] theorem push_inp (s : State) (k : Fin 16) (a : Addr) : (s.push k a).inp = s.inp := rfl
@[simp] theorem push_inputs (s : State) (k : Fin 16) (a : Addr) : (s.push k a).inputs = s.inputs := rfl
@[simp] theorem push_draws (s : State) (k : Fin 16) (a : Addr) : (s.push k a).draws = s.draws := rfl
@[simp] theorem push_reg (s : State) (k : Fin 16) (a : Addr) (r : Reg) : (s.push k a).reg r = s.reg r := rfl

/-! ### `State.pop` -/

@[simp] theorem pop_v (s : State) (k : Fin 16) : (s.pop k).v = s.v := rfl
@[simp] theorem pop_i (s : State) (k : Fin 16) : (s.pop k).i = s.i := rfl
@[simp] theorem pop_pc (s : State) (k : Fin 16) : (s.pop k).pc = s.pc := rfl
@[simp] theorem pop_sp (s : State) (k : Fin 16) : (s.pop k).sp = spPop k := rfl
@[simp] theorem pop_stack (s : State) (k : Fin 16) : (s.pop k).stack = s.stack := rfl
@[simp] theorem pop_dt (s : State) (k : Fin 16) : (s.pop k).dt = s.dt := rfl
@[simp] theorem pop_st (s : State) (k : Fin 16) : (s.pop k).st = s.st := rfl
@[simp] theorem pop_mem (s : State) (k : Fin 16) : (s.pop k).mem = s.mem := rfl
@[simp] theorem pop_fb (s : State) (k : Fin 16) : (s.pop k).fb = s.fb := rfl
@[simp] theorem pop_keys (s : State) (k : Fin 16) : (s.pop k).keys = s.keys := rfl
@[simp] theorem pop_await (s : State) (k : Fin 16) : (s.pop k).await = s.await := rfl
@[simp] theorem pop_halted (s : State) (k : Fin 16) : (s.pop k).halted = s.halted := rfl
@[simp] theorem pop_fault (s : State) (k : Fin 16) : (s.pop k).fault = s.fault := rfl
@[simp] theorem pop_loadError (s : State) (k : Fin 16) : (s.pop k).loadError = s.loadError := rfl
@[simp] theorem pop_inp (s : State) (k : Fin 16) : (s.pop k).inp = s.inp := rfl
@[simp] theorem pop_inputs (s : State) (k : Fin 16) : (s.pop k).inputs = s.inputs := rfl
@[simp] theorem pop_draws (s : State) (k : Fin 16) : (s.pop k).draws = s.draws := rfl
@[simp] theorem pop_reg (s : State) (k : Fin 16) (r : Reg) : (s.pop k).reg r = s.reg r := rfl
@[simp] theorem pop_entry (s : State) (k : Fin 16) (j : Fin 16) : (s.pop k).entry j = s.entry j := rfl

/-! ### `State.setInp` -/

@[simp] theorem setInp_v (s : State) (a : StepIn) : (s.setInp a).v = s.v := rfl
@[simp] theorem setInp_i (s : State) (a : StepIn) : (s.setInp a).i = s.i := rfl
@[simp] theorem setInp_pc (s : State) (a : StepIn) : (s.setInp a).pc = s.pc := rfl
@[simp] theorem setInp_sp (s : State) (a : StepIn) : (s.setInp a).sp = s.sp := rfl
@[simp] theorem setInp_stack (s : State) (a : StepIn) : (s.setInp a).stack = s.stack := rfl
@[simp] theorem setInp_dt (s : State) (a : StepIn) : (s.setInp a).dt = s.dt := rfl
@[simp] theorem setInp_st (s : State) (a : StepIn) : (s.setInp a).st = s.st := rfl
@[simp] theorem setInp_mem (s : State) (a : StepIn) : (s.setInp a).mem = s.mem := rfl
@[simp] theorem setInp_fb (s : State) (a : StepIn) : (s.setInp a).fb = s.fb := rfl
@[simp] theorem setInp_keys (s : State) (a : StepIn) : (s.setInp a).keys = s.keys := rfl
@[simp] theorem setInp_await (s : State) (a : StepIn) : (s.setInp a).await = s.await := rfl
@[simp] theorem setInp_halted (s : State) (a : StepIn) : (s.setInp a).halted = s.halted := rfl
@[simp] theorem setInp_fault (s : State) (a : StepIn) : (s.setInp a).fault = s.fault := rfl
@[simp] theorem setInp_loadError (s : State) (a : StepIn) : (s.setInp a).loadError = s.loadError := rfl
@[simp] theorem setInp_inp (s : State) (a : StepIn) : (s.setInp a).inp = a := rfl
@[simp] theorem setInp_inputs (s : State) (a : StepIn) : (s.setInp a).inputs = s.inputs := rfl
@[simp] theorem setInp_draws (s : State) (a : StepIn) : (s.setInp a).draws = s.draws := rfl
@[simp] theorem setInp_reg (s : State) (a : StepIn) (r : Reg) : (s.setInp a).reg r = s.reg r := rfl
@[simp] theorem setInp_entry (s : State) (a : StepIn) (j : Fin 16) : (s.setInp a).entry j = s.entry j := rfl

/-! ### `State.latchKeys` -/

@[simp] theorem latchKeys_v (s : State) : (s.latchKeys).v = s.v := rfl
@[simp] theorem latchKeys_i (s : State) : (s.latchKeys).i = s.i := rfl
@[simp] theorem latchKeys_pc (s : State) : (s.latchKeys).pc = s.pc := rfl
@[simp] theorem latchKeys_sp (s : State) : (s.latchKeys).sp = s.sp := rfl
@[simp] theorem latchKeys_stack (s : State) : (s.latchKeys).stack = s.stack := rfl
@[simp] theorem latchKeys_dt (s : State) : (s.latchKeys).dt = s.dt := rfl
@[simp] theorem latchKeys_st (s : State) : (s.latchKeys).st = s.st := rfl
@[simp] theorem latchKeys_mem (s : State) : (s.latchKeys).mem = s.mem := rfl
@[simp] theorem latchKeys_fb (s : State) : (s.latchKeys).fb = s.fb := rfl
@[simp] theorem latchKeys_keys (s : State) : (s.latchKeys).keys = s.inp.keys := rfl
@[simp] theorem latchKeys_await (s : State) : (s.latchKeys).await = s.await := rfl
@[simp] theorem latchKeys_halted (s : State) : (s.latchKeys).halted = s.halted := rfl
@[simp] theorem latchKeys_fault (s : State) : (s.latchKeys).fault = s.fault := rfl
@[simp] theorem latchKeys_loadError (s : State) : (s.latchKeys).loadError = s.loadError := rfl
@[simp] theorem latchKeys_inp (s : State) : (s.latchKeys).inp = s.inp := rfl
@[simp] theorem latchKeys_inputs (s : State) : (s.latchKeys).inputs = s.inputs := rfl
@[simp] theorem latchKeys_draws (s : State) : (s.latchKeys).draws = s.draws := rfl
@[simp] theorem latchKeys_reg (s : State) (r : Reg) : (s.latchKeys).reg r = s.reg r := rfl
@[simp] theorem latchKeys_entry (s : State) (j : Fin 16) : (s.latchKeys).entry j = s.entry j := rfl

/-! ### `State.complete` -/

@[simp] theorem complete_v (s : State) (p : Addr) : (s.complete p).v = s.v := rfl
@[simp] theorem complete_i (s : State) (p : Addr) : (s.complete p).i = s.i := rfl
@[simp] theorem complete_pc (s : State) (p : Addr) : (s.complete p).pc = p := rfl
@[simp] theorem complete_sp (s : State) (p : Addr) : (s.complete p).sp = s.sp := rfl
@[simp] theorem complete_stack (s : State) (p : Addr) : (s.complete p).stack = s.stack := rfl
@[simp] theorem complete_dt (s : State) (p : Addr) : (s.complete p).dt = tickTimer s.inp.dtDue s.dt := rfl
@[simp] theorem complete_st (s : State) (p : Addr) : (s.complete p).st = tickTimer s.inp.stDue s.st := rfl
@[simp] theorem complete_mem (s : State) (p : Addr) : (s.complete p).mem = s.mem := rfl
@[simp] theorem complete_fb (s : State) (p : Addr) : (s.complete p).fb = s.fb := rfl
@[simp] theorem complete_keys (s : State) (p : Addr) : (s.complete p).keys = s.keys := rfl
@[simp] theorem complete_await (s : State) (p : Addr) : (s.complete p).await = s.await := rfl
@[simp] theorem complete_halted (s : State) (p : Addr) : (s.complete p).halted = s.halted := rfl
@[simp] theorem complete_fault (s : State) (p : Addr) : (s.complete p).fault = s.fault := rfl
@[simp] theorem complete_loadError (s : State) (p : Addr) : (s.complete p).loadError = s.loadError := rfl
@[simp] theorem complete_inp (s : State) (p : Addr) : (s.complete p).inp = s.inp := rfl
@[simp] theorem complete_inputs (s : State) (p : Addr) : (s.complete p).inputs = s.inputs := rfl
@[simp] theorem complete_draws (s : State) (p : Addr) : (s.complete p).draws = s.draws := rfl
@[simp] theorem complete_reg (s : State) (p : Addr) (r : Reg) : (s.complete p).reg r = s.reg r := rfl
@[simp] theorem complete_entry (s : State) (p : Addr) (j : Fin 16) : (s.complete p).entry j = s.entry j := rfl

/-! ### `State.takeFault` -/

@[simp] theorem takeFault_v (s : State) (f : Fault) (w : Word) : (s.takeFault f w).v = s.v := rfl
@[simp] theorem takeFault_i (s : State) (f : Fault) (w : Word) : (s.takeFault f w).i = s.i := rfl
@[simp] theorem takeFault_pc (s : State) (f : Fault) (w : Word) : (s.takeFault f w).pc = s.pc := rfl
@[simp] theorem takeFault_sp (s : State) (f : Fault) (w : Word) : (s.takeFault f w).sp = s.sp := rfl
@[simp] theorem takeFault_stack (s : State) (f : Fault) (w : Word) : (s.takeFault f w).stack = s.stack := rfl
@[simp] theorem takeFault_dt (s : State) (f : Fault) (w : Word) : (s.takeFault f w).dt = s.dt := rfl
@[simp] theorem takeFault_st (s : State) (f : Fault) (w : Word) : (s.takeFault f w).st = s.st := rfl
@[simp] theorem takeFault_mem (s : State) (f : Fault) (w : Word) : (s.takeFault f w).mem = s.mem := rfl
@[simp] theorem takeFault_fb (s : State) (f : Fault) (w : Word) : (s.takeFault f w).fb = s.fb := rfl
@[simp] theorem takeFault_keys (s : State) (f : Fault) (w : Word) : (s.takeFault f w).keys = s.keys := rfl
@[simp] theorem takeFault_await (s : State) (f : Fault) (w : Word) : (s.takeFault f w).await = s.await := rfl
@[simp] theorem takeFault_halted (s : State) (f : Fault) (w : Word) : (s.takeFault f w).halted = true := rfl
@[simp] theorem takeFault_fault (s : State) (f : Fault) (w : Word) : (s.takeFault f w).fault = some ⟨faultCode f, s.pc, w⟩ := rfl
@[simp] theorem takeFault_loadError (s : State) (f : Fault) (w : Word) : (s.takeFault f w).loadError = s.loadError := rfl
@[simp] theorem takeFault_inp (s : State) (f : Fault) (w : Word) : (s.takeFault f w).inp = s.inp := rfl
@[simp] theorem takeFault_inputs (s : State) (f : Fault) (w : Word) : (s.takeFault f w).inputs = s.inputs := rfl
@[simp] theorem takeFault_draws (s : State) (f : Fault) (w : Word) : (s.takeFault f w).draws = s.draws := rfl
@[simp] theorem takeFault_reg (s : State) (f : Fault) (w : Word) (r : Reg) : (s.takeFault f w).reg r = s.reg r := rfl
@[simp] theorem takeFault_entry (s : State) (f : Fault) (w : Word) (j : Fin 16) : (s.takeFault f w).entry j = s.entry j := rfl

/-! ### `State.suspend` -/

@[simp] theorem suspend_v (s : State) (q : Reg) : (s.suspend q).v = s.v := rfl
@[simp] theorem suspend_i (s : State) (q : Reg) : (s.suspend q).i = s.i := rfl
@[simp] theorem suspend_pc (s : State) (q : Reg) : (s.suspend q).pc = s.pc := rfl
@[simp] theorem suspend_sp (s : State) (q : Reg) : (s.suspend q).sp = s.sp := rfl
@[simp] theorem suspend_stack (s : State) (q : Reg) : (s.suspend q).stack = s.stack := rfl
@[simp] theorem suspend_dt (s : State) (q : Reg) : (s.suspend q).dt = s.dt := rfl
@[simp] theorem suspend_st (s : State) (q : Reg) : (s.suspend q).st = s.st := rfl
@[simp] theorem suspend_mem (s : State) (q : Reg) : (s.suspend q).mem = s.mem := rfl
@[simp] theorem suspend_fb (s : State) (q : Reg) : (s.suspend q).fb = s.fb := rfl
@[simp] theorem suspend_keys (s : State) (q : Reg) : (s.suspend q).keys = s.keys := rfl
@[simp] theorem suspend_await (s : State) (q : Reg) : (s.suspend q).await = some q := rfl
@[simp] theorem suspend_halted (s : State) (q : Reg) : (s.suspend q).halted = s.halted := rfl
@[simp] theorem suspend_fault (s : State) (q : Reg) : (s.suspend q).fault = s.fault := rfl
@[simp] theorem suspend_loadError (s : State) (q : Reg) : (s.suspend q).loadError = s.loadError := rfl
@[simp] theorem suspend_inp (s : State) (q : Reg) : (s.suspend q).inp = s.inp := rfl
@[simp] theorem suspend_inputs (s : State) (q : Reg) : (s.suspend q).inputs = s.inputs := rfl
@[simp] theorem suspend_draws (s : State) (q : Reg) : (s.suspend q).draws = s.draws := rfl
@[simp] theorem suspend_reg (s : State) (q : Reg) (r : Reg) : (s.suspend q).reg r = s.reg r := rfl
@[simp] theorem suspend_entry (s : State) (q : Reg) (j : Fin 16) : (s.suspend q).entry j = s.entry j := rfl

/-! ### `State.clearAwait` -/

@[simp] theorem clearAwait_v (s : State) : (s.clearAwait).v = s.v := rfl
@[simp] theorem clearAwait_i (s : State) : (s.clearAwait).i = s.i := rfl
@[simp] theorem clearAwait_pc (s : State) : (s.clearAwait).pc = s.pc := rfl
@[simp] theorem clearAwait_sp (s : State) : (s.clearAwait).sp = s.sp := rfl
@[simp] theorem clearAwait_stack (s : State) : (s.clearAwait).stack = s.stack := rfl
@[simp] theorem clearAwait_dt (s : State) : (s.clearAwait).dt = s.dt := rfl
@[simp] theorem clearAwait_st (s : State) : (s.clearAwait).st = s.st := rfl
@[simp] theorem clearAwait_mem (s : State) : (s.clearAwait).mem = s.mem := rfl
@[simp] theorem clearAwait_fb (s : State) : (s.clearAwait).fb = s.fb := rfl
@[simp] theorem clearAwait_keys (s : State) : (s.clearAwait).keys = s.keys := rfl
@[simp] theorem clearAwait_await (s : State) : (s.clearAwait).await = none := rfl
@[simp] theorem clearAwait_halted (s : State) : (s.clearAwait).halted = s.halted := rfl
@[simp] theorem clearAwait_fault (s : State) : (s.clearAwait).fault = s.fault := rfl
@[simp] theorem clearAwait_loadError (s : State) : (s.clearAwait).loadError = s.loadError := rfl
@[simp] theorem clearAwait_inp (s : State) : (s.clearAwait).inp = s.inp := rfl
@[simp] theorem clearAwait_inputs (s : State) : (s.clearAwait).inputs = s.inputs := rfl
@[simp] theorem clearAwait_draws (s : State) : (s.clearAwait).draws = s.draws := rfl
@[simp] theorem clearAwait_reg (s : State) (r : Reg) : (s.clearAwait).reg r = s.reg r := rfl
@[simp] theorem clearAwait_entry (s : State) (j : Fin 16) : (s.clearAwait).entry j = s.entry j := rfl
/-! ### The registers and stack entries an update writes -/

/-- What a register write does to every register. -/
@[simp] theorem reg_setReg (s : State) (x r : Reg) (b : Byte) :
    (s.setReg x b).reg r = if r = x then b else s.reg r := by
  unfold State.reg State.setReg
  simp only [Vector.getElem_set, Fin.ext_iff, eq_comm]

/-- Writes of two different registers commute. -/
theorem setReg_comm (s : State) {x r : Reg} (h : r ≠ x) (b c : Byte) :
    (s.setReg r c).setReg x b = (s.setReg x b).setReg r c := by
  have : r.val ≠ x.val := fun e => h (Fin.ext e)
  simp [State.setReg, Vector.set_comm _ _ this]

/-- What a push does to every stack entry. -/
@[simp] theorem entry_push (s : State) (k j : Fin 16) (a : Addr) :
    (s.push k a).entry j = if j = k then a else s.entry j := by
  unfold State.entry State.push
  simp only [Vector.getElem_set, Fin.ext_iff, eq_comm]

/-! ### Sampling the inputs -/

/-- Sampling takes the record `nextInput` names, and touches only the model's own fields (R101). -/
theorem sample_spec (s : State) :
    s.sample = { s with inp := s.nextInput, inputs := s.inputs.tail, draws := s.draws + (if s.inputs = [] then 1 else 0) } := by
  unfold State.sample State.nextInput
  split <;> simp [*]

/-- The record of an earlier step has no effect on the sampling: it is replaced unread. -/
@[simp] theorem sample_setInp (s : State) (a : StepIn) : (s.setInp a).sample = s.sample := by
  simp [sample_spec, State.setInp, State.nextInput]

@[simp] theorem sample_inp (s : State) : s.sample.inp = s.nextInput := by simp [sample_spec]
@[simp] theorem sample_v (s : State) : s.sample.v = s.v := by simp [sample_spec]
@[simp] theorem sample_i (s : State) : s.sample.i = s.i := by simp [sample_spec]
@[simp] theorem sample_pc (s : State) : s.sample.pc = s.pc := by simp [sample_spec]
@[simp] theorem sample_sp (s : State) : s.sample.sp = s.sp := by simp [sample_spec]
@[simp] theorem sample_stack (s : State) : s.sample.stack = s.stack := by simp [sample_spec]
@[simp] theorem sample_dt (s : State) : s.sample.dt = s.dt := by simp [sample_spec]
@[simp] theorem sample_st (s : State) : s.sample.st = s.st := by simp [sample_spec]
@[simp] theorem sample_mem (s : State) : s.sample.mem = s.mem := by simp [sample_spec]
@[simp] theorem sample_fb (s : State) : s.sample.fb = s.fb := by simp [sample_spec]
@[simp] theorem sample_keys (s : State) : s.sample.keys = s.keys := by simp [sample_spec]
@[simp] theorem sample_await (s : State) : s.sample.await = s.await := by simp [sample_spec]
@[simp] theorem sample_halted (s : State) : s.sample.halted = s.halted := by simp [sample_spec]
@[simp] theorem sample_fault (s : State) : s.sample.fault = s.fault := by simp [sample_spec]
@[simp] theorem sample_loadError (s : State) : s.sample.loadError = s.loadError := by simp [sample_spec]
@[simp] theorem sample_reg (s : State) (r : Reg) : s.sample.reg r = s.reg r := by simp [sample_spec, State.reg]
@[simp] theorem sample_entry (s : State) (k : Fin 16) : s.sample.entry k = s.entry k := by simp [sample_spec, State.entry]

end Sys2Proof.Machine
end

