-- ==== Sys2Proof/Laws/Memory.lean ====
section
/-! SUPPORT. What the memory operations do: one spec lemma for each, and that each keeps the canonical form. -/

namespace Sys2Proof.Machine

/-- Cells of a well-formed memory below its first entry hold the reset content. -/
theorem Memory.get_below {lo : Nat} {m : Memory} (h : Memory.wfFrom lo m = true) {a : Nat} (ha : a < lo) :
    Memory.get m a = resetByte a := by
  induction m generalizing lo with
  | nil => rfl
  | cons e rest ih =>
    obtain ⟨k, b⟩ := e
    simp only [Memory.wfFrom, Bool.and_eq_true, decide_eq_true_eq] at h
    have hne : k ≠ a := by omega
    simp only [Memory.get, if_neg hne]
    exact ih h.2 (by omega)

/-- A well-formed memory is well formed from any lower bound. -/
theorem Memory.wfFrom_mono {lo lo' : Nat} {m : Memory} (h : Memory.wfFrom lo m = true) (hl : lo' ≤ lo) :
    Memory.wfFrom lo' m = true := by
  cases m with
  | nil => rfl
  | cons e rest =>
    simp only [Memory.wfFrom, Bool.and_eq_true, decide_eq_true_eq] at h ⊢
    exact ⟨⟨⟨by omega, h.1.1.2⟩, h.1.2⟩, h.2⟩

/-- Reading any cell after one cell is written. -/
theorem Memory.get_put {lo : Nat} {m : Memory} (h : Memory.wfFrom lo m = true) (a c : Nat) (b : Byte) :
    Memory.get (Memory.put m a b) c = if c = a then b else Memory.get m c := by
  induction m generalizing lo with
  | nil =>
    unfold Memory.put
    split
    · split <;> simp_all [Memory.get]
    · simp only [Memory.get, eq_comm]
  | cons e rest ih =>
    obtain ⟨k, d⟩ := e
    simp only [Memory.wfFrom, Bool.and_eq_true, decide_eq_true_eq] at h
    unfold Memory.put
    by_cases hk : k < a
    · simp only [if_pos hk, Memory.get, ih h.2]
      split <;> split <;> first | rfl | omega
    · by_cases he : k = a
      · subst he
        by_cases hb : b = resetByte k
        · simp only [lt_irrefl, if_false, if_true, if_pos hb, Memory.get]
          by_cases hc : c = k
          · subst hc; simp [Memory.get_below h.2 (Nat.lt_succ_self c), hb]
          · simp [hc, Ne.symm hc]
        · simp only [lt_irrefl, if_false, if_true, if_neg hb, Memory.get]
          by_cases hc : c = k
          · simp [hc]
          · simp [hc, Ne.symm hc]
      · by_cases hb : b = resetByte a
        · simp only [if_neg hk, if_neg he, if_pos hb]
          by_cases hc : c = a
          · subst hc
            simp [Memory.get, he, Memory.get_below h.2 (show c < k + 1 by omega), hb]
          · simp [hc]
        · simp only [if_neg hk, if_neg he, if_neg hb, Memory.get]
          by_cases hc : c = a
          · simp [hc]
          · simp [hc, Ne.symm hc]

/-- Writing a cell keeps the canonical form. -/
theorem Memory.wfFrom_put {lo : Nat} {m : Memory} (h : Memory.wfFrom lo m = true) {a : Nat} (hlo : lo ≤ a)
    (ha : a < 4096) (b : Byte) : Memory.wfFrom lo (Memory.put m a b) = true := by
  induction m generalizing lo with
  | nil =>
    unfold Memory.put
    split
    · rfl
    · simp [Memory.wfFrom, *]
  | cons e rest ih =>
    obtain ⟨k, d⟩ := e
    have h0 := h
    simp only [Memory.wfFrom, Bool.and_eq_true, decide_eq_true_eq] at h
    unfold Memory.put
    by_cases hk : k < a
    · simp only [if_pos hk, Memory.wfFrom, Bool.and_eq_true, decide_eq_true_eq]
      exact ⟨h.1, ih h.2 hk⟩
    · by_cases he : k = a
      · subst he
        by_cases hb : b = resetByte k
        · simp only [lt_irrefl, if_false, if_true, if_pos hb]
          exact Memory.wfFrom_mono h.2 (by omega)
        · simp [Memory.wfFrom, h.2, ha, hlo, hb]
      · by_cases hb : b = resetByte a
        · simp only [if_neg hk, if_neg he, if_pos hb]
          exact h0
        · simp only [if_neg hk, if_neg he, if_neg hb, Memory.wfFrom, Bool.and_eq_true, decide_eq_true_eq, bne_iff_ne]
          exact ⟨⟨⟨hlo, ha⟩, hb⟩, ⟨⟨by omega, h.1.1.2⟩, by simpa using h.1.2⟩, h.2⟩

theorem effAddr_lt (a : Nat) : effAddr a < 4096 := Nat.mod_lt _ (by decide)

/-- Reading any address after a write: every address is taken modulo 4096 (R52). -/
theorem Memory.read_write {m : Memory} (h : m.wf = true) (a c : Nat) (b : Byte) :
    (m.write a b).read c = if c % 4096 = a % 4096 then b else m.read c :=
  Memory.get_put h _ _ _

/-- A write keeps the canonical form. -/
theorem Memory.wf_write {m : Memory} (h : m.wf = true) (a : Nat) (b : Byte) : (m.write a b).wf = true :=
  Memory.wfFrom_put h (Nat.zero_le _) (effAddr_lt a) b

/-- Two addresses with the same effective address read the same (R52). -/
theorem Memory.read_mod (m : Memory) (a : Nat) : m.read (a % 4096) = m.read a := by
  simp [Memory.read, effAddr]

/-- The memory FX55 leaves (R204): `n` registers from `base` up, every other address as before. -/
theorem dumpRegs_spec {s : State} (h : s.mem.wf = true) (base : Nat) {n : Nat} (hn : n ≤ 16) :
    (dumpRegs s base n).wf = true ∧
    (∀ k, k < n → (dumpRegs s base n).read (base + k) = s.reg (regNo k)) ∧
    (∀ c, (∀ k, k < n → c % 4096 ≠ (base + k) % 4096) → (dumpRegs s base n).read c = s.mem.read c) := by
  induction n with
  | zero => exact ⟨h, by simp, fun c _ => rfl⟩
  | succ n ih =>
    obtain ⟨hw, hin, hout⟩ := ih (by omega)
    refine ⟨Memory.wf_write hw _ _, fun k hk => ?_, fun c hc => ?_⟩
    · rw [dumpRegs, Memory.read_write hw]
      split
      · have : k = n := by omega
        rw [this]
      · exact hin k (by omega)
    · rw [dumpRegs, Memory.read_write hw, if_neg (hc n (by omega))]
      exact hout c fun k hk => hc k (by omega)

@[simp] theorem regNo_val (x : Reg) : regNo x.val = x := by
  simp [regNo]

/-- The registers FX65 leaves (R205): V0 to V(n − 1) loaded from `base` up, the others as before. -/
theorem loadRegs_reg (s : State) (base : Nat) {n : Nat} (hn : n ≤ 16) (r : Reg) :
    (loadRegs s base n).reg r = if r.val < n then s.mem.read (base + r.val) else s.reg r := by
  induction n with
  | zero => simp [loadRegs]
  | succ n ih =>
    have hv : (regNo n).val = n := Nat.mod_eq_of_lt (by omega)
    rw [loadRegs, reg_setReg, ih (by omega)]
    by_cases hr : r = regNo n
    · have : r.val = n := by rw [hr, hv]
      simp [hr, hv]
    · have hne : r.val ≠ n := fun h => hr (Fin.ext (by rw [hv, h]))
      by_cases hlt : r.val < n
      · simp [hr, hlt, Nat.lt_succ_of_lt hlt]
      · have : ¬ r.val < n + 1 := by omega
        simp [hr, hlt, this]

/-- FX65 writes registers and nothing else. -/
theorem loadRegs_eq (s : State) (base n : Nat) : loadRegs s base n = { s with v := (loadRegs s base n).v } := by
  induction n with
  | zero => rfl
  | succ n ih => rw [loadRegs, ih]; rfl

/-- The memory after an image is copied (R263). -/
theorem copyImage_spec (image : List Byte) {a : Nat} {m : Memory} (h : m.wf = true) (ha : a + image.length ≤ 4096) :
    (copyImage image a m).wf = true ∧
    (∀ k (hk : k < image.length), (copyImage image a m).read (a + k) = image[k]) ∧
    (∀ c, c < 4096 → (c < a ∨ a + image.length ≤ c) → (copyImage image a m).read c = m.read c) := by
  induction image generalizing a m with
  | nil => exact ⟨h, by simp, fun c _ _ => rfl⟩
  | cons b rest ih =>
    simp only [List.length_cons] at ha
    obtain ⟨hw, hin, hout⟩ := ih (Memory.wf_write h a b) (a := a + 1) (by omega)
    refine ⟨hw, fun k hk => ?_, fun c hc hr => ?_⟩
    · cases k with
      | zero =>
        simp only [copyImage]
        rw [hout _ (by omega) (by omega), Memory.read_write h]
        simp
      | succ k =>
        simp only [copyImage]
        have := hin k (by simpa using hk)
        rw [show a + (k + 1) = a + 1 + k by omega, this]
        simp
    · simp only [copyImage]
      simp only [List.length_cons] at hr
      rw [hout c hc (by omega), Memory.read_write h, if_neg (by omega)]

/-- A word placed at PC is the word the next fetch reads (R53, R55). -/
theorem fetch_placeWord {s : State} (h : s.mem.wf = true) (w : Word) :
    fetchWord { s with mem := placeWord s.mem s.pc w } = w := by
  have hw := Memory.wf_write h s.pc.toNat (highByte w)
  simp only [fetchWord, placeWord, Memory.read_write hw, Memory.read_write h]
  rw [if_neg (by omega), if_pos trivial, if_pos trivial]
  exact wordOfBytes_high_low w

/-- Placing a word keeps the canonical form. -/
theorem wf_placeWord {m : Memory} (h : m.wf = true) (pc : Addr) (w : Word) : (placeWord m pc w).wf = true :=
  Memory.wf_write (Memory.wf_write h _ _) _ _

/-- BCD keeps the canonical form (R203). -/
theorem wf_bcdMem {s : State} (h : s.mem.wf = true) (x : Reg) : (s.bcdMem x).wf = true :=
  Memory.wf_write (Memory.wf_write (Memory.wf_write h _ _) _ _) _ _

/-- The reset content of memory for a FONT (R41, R57). -/
theorem fontMemory_spec (f : Font) :
    (fontMemory f).wf = true ∧ (∀ a (h : a < 80), (fontMemory f).read a = f[a]) ∧
    (∀ a, 80 ≤ a → a < 4096 → (fontMemory f).read a = 0) := by
  obtain ⟨hw, hin, hout⟩ := copyImage_spec f.toList (a := 0) (m := []) rfl (by simp)
  refine ⟨hw, fun a h => ?_, fun a h1 h2 => ?_⟩
  · have := hin a (by simpa using h)
    rw [Nat.zero_add] at this
    exact this.trans (by simp)
  · refine (hout a h2 (.inr (by simpa using h1))).trans ?_
    simp only [Memory.read, Memory.get, effAddr, Nat.mod_eq_of_lt h2, resetByte]
    exact List.getD_eq_default _ _ h1

/-- The default FONT is what unlisted addresses read as, so its reset memory lists nothing. -/
theorem fontMemory_default : fontMemory defaultFont = [] := by decide +kernel

/-- Reset memory is in canonical form. -/
theorem wf_reset : State.reset.mem.wf = true := rfl

end Sys2Proof.Machine
end

