-- ==== Sys2Proof/Laws/Screen.lean ====
section
/-! SUPPORT. What drawing does to a pixel: one spec lemma for a plot, a sprite row and a sprite. -/

namespace Sys2Proof.Machine

/-- Two pixels of the 64 by 32 grid have the same port index only if they are the same pixel. -/
theorem pixelIndex_inj {x y x' y' : Nat} (hx : x < 64) (hx' : x' < 64) :
    pixelIndex x y = pixelIndex x' y' ↔ x = x' ∧ y = y' := by
  unfold pixelIndex; omega

/-- A flip changes its pixel and no other. -/
theorem pixel_flip (fb : Framebuffer) {x y px py : Nat} (hx : x < 64) (hy : y < 32) (hpx : px < 64) :
    (fb.flip x y).pixel px py = (fb.pixel px py ^^ decide (px = x ∧ py = y)) := by
  have hlt : pixelIndex x y < 2048 := by unfold pixelIndex; omega
  simp only [Framebuffer.pixel, Framebuffer.flip, BitVec.getLsbD_xor, BitVec.getLsbD_twoPow, hlt, decide_true,
    Bool.true_and, pixelIndex_inj hx hpx]
  simp only [eq_comm]

/-- Two framebuffers that agree on every pixel of the grid are equal. -/
theorem Framebuffer.ext {a b : Framebuffer} (h : ∀ x y, x < 64 → y < 32 → a.pixel x y = b.pixel x y) : a = b := by
  apply BitVec.eq_of_getLsbD_eq
  intro j hj
  have := h (j % 64) (j / 64) (by omega) (by omega)
  simpa [Framebuffer.pixel, pixelIndex, show 64 * (j / 64) + j % 64 = j by omega] using this

/-- The sprite row byte `b` at (x0, y) has a set bit at pixel (px, py), among its first `n` columns (R172, R174). -/
def rowBit (b : Byte) (x0 y px py n : Nat) : Prop :=
  py = y % 32 ∧ ∃ c, c < n ∧ px = (x0 + c) % 64 ∧ b.getLsbD (7 - c) = true

/-- The sprite at `base`, drawn at (x0, y0), has a set bit at pixel (px, py), among its first `n` rows. -/
def spriteBit (m : Memory) (base x0 y0 px py n : Nat) : Prop :=
  ∃ r, r < n ∧ rowBit (m.read (base + r)) x0 (y0 + r) px py 8

/-- What the first `n` columns of a row do to every pixel and to the collision (R171). -/
theorem drawRow_spec (p : Canvas) (b : Byte) (x0 y : Nat) {n : Nat} (hn : n ≤ 8) :
    (∀ px py, px < 64 → ((p.drawRow b x0 y n).fb.pixel px py = true ↔
      (p.fb.pixel px py = true ↔ ¬ rowBit b x0 y px py n))) ∧
    ((p.drawRow b x0 y n).hit = true ↔
      p.hit = true ∨ ∃ px py, px < 64 ∧ p.fb.pixel px py = true ∧ rowBit b x0 y px py n) := by
  induction n with
  | zero => simp [Canvas.drawRow, rowBit]
  | succ n ih =>
    obtain ⟨hfb, hhit⟩ := ih (by omega)
    have hstep : ∀ px py, rowBit b x0 y px py (n + 1) ↔ rowBit b x0 y px py n ∨
        (py = y % 32 ∧ px = (x0 + n) % 64 ∧ b.getLsbD (7 - n) = true) := by
      intro px py
      simp only [rowBit, Nat.lt_succ_iff_lt_or_eq]
      constructor
      · rintro ⟨h, c, hc | rfl, h2⟩
        · exact .inl ⟨h, c, hc, h2⟩
        · exact .inr ⟨h, h2⟩
      · rintro (⟨h, c, hc, h2⟩ | ⟨h, h2⟩)
        · exact ⟨h, c, .inl hc, h2⟩
        · exact ⟨h, n, .inr rfl, h2⟩
    have hdisj : ¬ rowBit b x0 y ((x0 + n) % 64) (y % 32) n := by
      rintro ⟨_, c, hc, h, _⟩
      omega
    by_cases hb : b.getLsbD (7 - n) = true
    · simp only [Canvas.drawRow, if_pos hb, Canvas.plot]
      refine ⟨fun px py hpx => ?_, ?_⟩
      · rw [pixel_flip _ (Nat.mod_lt _ (by decide)) (Nat.mod_lt _ (by decide)) hpx, hstep]
        by_cases he : px = (x0 + n) % 64 ∧ py = y % 32
        · obtain ⟨rfl, rfl⟩ := he
          have := hfb _ (y % 32) hpx
          simp only [hdisj, not_false_eq_true, iff_true] at this
          simpa [hb] using Bool.eq_iff_iff.2 this
        · have h2 : ¬ (py = y % 32 ∧ px = (x0 + n) % 64 ∧ b.getLsbD (7 - n) = true) := fun h => he ⟨h.2.1, h.1⟩
          simp [he, h2, hfb px py hpx]
      · simp only [Bool.or_eq_true, hhit, hstep]
        have := hfb ((x0 + n) % 64) (y % 32) (Nat.mod_lt _ (by decide))
        simp only [hdisj, not_false_eq_true, iff_true] at this
        rw [this]
        constructor
        · rintro ((h | ⟨px, py, h1, h2, h3⟩) | h)
          · exact .inl h
          · exact .inr ⟨px, py, h1, h2, .inl h3⟩
          · exact .inr ⟨_, _, Nat.mod_lt _ (by decide), h, .inr ⟨rfl, rfl, hb⟩⟩
        · rintro (h | ⟨px, py, h1, h2, h3 | ⟨rfl, rfl, _⟩⟩)
          · exact .inl (.inl h)
          · exact .inl (.inr ⟨px, py, h1, h2, h3⟩)
          · exact .inr h2
    · simp only [Canvas.drawRow, if_neg hb]
      have hsame : ∀ px py, rowBit b x0 y px py (n + 1) ↔ rowBit b x0 y px py n := fun px py => by
        rw [hstep]; simp [hb]
      simp only [hsame]
      exact ⟨hfb, hhit⟩

/-- What a sprite does to every pixel and to the collision: no pixel is touched twice, so each pixel is XORed with its sprite bit,
and the collision is raised exactly by a set pixel under a set sprite bit (R171, R174, R175). -/
theorem drawSprite_spec (p : Canvas) (m : Memory) (base x0 y0 : Nat) {n : Nat} (hn : n ≤ 32) :
    (∀ px py, px < 64 → ((p.drawSprite m base x0 y0 n).fb.pixel px py = true ↔
      (p.fb.pixel px py = true ↔ ¬ spriteBit m base x0 y0 px py n))) ∧
    ((p.drawSprite m base x0 y0 n).hit = true ↔
      p.hit = true ∨ ∃ px py, px < 64 ∧ p.fb.pixel px py = true ∧ spriteBit m base x0 y0 px py n) := by
  induction n with
  | zero => simp [Canvas.drawSprite, spriteBit]
  | succ n ih =>
    obtain ⟨hfb, hhit⟩ := ih (by omega)
    have hstep : ∀ px py, spriteBit m base x0 y0 px py (n + 1) ↔ spriteBit m base x0 y0 px py n ∨
        rowBit (m.read (base + n)) x0 (y0 + n) px py 8 := by
      intro px py
      simp only [spriteBit, Nat.lt_succ_iff_lt_or_eq]
      constructor
      · rintro ⟨r, hr | rfl, h⟩
        · exact .inl ⟨r, hr, h⟩
        · exact .inr h
      · rintro (⟨r, hr, h⟩ | h)
        · exact ⟨r, .inl hr, h⟩
        · exact ⟨n, .inr rfl, h⟩
    have hdisj : ∀ px py, rowBit (m.read (base + n)) x0 (y0 + n) px py 8 → ¬ spriteBit m base x0 y0 px py n := by
      rintro px py ⟨h1, _⟩ ⟨r, hr, h2, _⟩
      omega
    obtain ⟨rfb, rhit⟩ := drawRow_spec (p.drawSprite m base x0 y0 n) (m.read (base + n)) x0 (y0 + n) (le_refl 8)
    simp only [Canvas.drawSprite]
    refine ⟨fun px py hpx => ?_, ?_⟩
    · rw [rfb px py hpx, hfb px py hpx, hstep]
      by_cases hr : rowBit (m.read (base + n)) x0 (y0 + n) px py 8
      · have := hdisj px py hr
        simp [hr, this]
      · simp [hr]
    · rw [rhit, hhit]
      constructor
      · rintro ((h | ⟨px, py, h1, h2, h3⟩) | ⟨px, py, h1, h2, h3⟩)
        · exact .inl h
        · exact .inr ⟨px, py, h1, h2, (hstep px py).2 (.inl h3)⟩
        · rw [hfb px py h1] at h2
          exact .inr ⟨px, py, h1, h2.2 (hdisj px py h3), (hstep px py).2 (.inr h3)⟩
      · rintro (h | ⟨px, py, h1, h2, h3⟩)
        · exact .inl (.inl h)
        · rcases (hstep px py).1 h3 with h4 | h4
          · exact .inl (.inr ⟨px, py, h1, h2, h4⟩)
          · exact .inr ⟨px, py, h1, (hfb px py h1).2 (by simp [h2, hdisj px py h4]), h4⟩

end Sys2Proof.Machine
end

