-- ==== Sys2Proof/Laws/Steps.lean ====
section
/-! SUPPORT. The tick, the stack pointer, the three forms of a step, and the ends of a handler in the terms of Safety.lean. -/

namespace Sys2Proof.Machine

/-- One tick of one timer as a number (R240). -/
theorem toNat_tickTimer (due : Bool) (t : Byte) : (tickTimer due t).toNat = tickedValue due t := by
  unfold tickTimer tickedValue
  by_cases h : t = 0
  · subst h; cases due <;> rfl
  · have : t.toNat ≠ 0 := fun e => h (BitVec.eq_of_toNat_eq (by simpa using e))
    cases due
    · simp
    · simp only [if_neg h, if_true]
      bv_omega

/-- A push is refused exactly on a full stack, else goes to the entry one above SP (R31). -/
theorem spPush_spec (sp : Option (Fin 16)) :
    (spPush sp = none ↔ spValue sp = 15) ∧ ∀ k, spPush sp = some k ↔ (k.val : Int) = spValue sp + 1 := by
  cases sp with
  | none =>
    simp only [spPush, spValue, reduceCtorEq, Option.some.injEq, Fin.ext_iff]
    refine ⟨by simp, fun k => ?_⟩
    simp only [Fin.val_zero]
    omega
  | some j =>
    simp only [spPush, spValue]
    by_cases h : j.val + 1 < 16
    · simp only [dif_pos h, reduceCtorEq, false_iff, Option.some.injEq, Fin.ext_iff]
      exact ⟨by omega, fun k => by omega⟩
    · simp only [dif_neg h, reduceCtorEq, false_iff, true_iff]
      exact ⟨by omega, fun k => by omega⟩

/-- A pop leaves SP one lower (R31). -/
theorem spValue_spPop (k : Fin 16) : spValue (spPop k) = (k.val : Int) - 1 := by
  obtain ⟨j, hj⟩ := k
  cases j <;> simp [spPop, spValue]

/-- SP is its number. -/
theorem spValue_inj {a b : Option (Fin 16)} (h : spValue a = spValue b) : a = b := by
  cases a <;> cases b <;> simp only [spValue] at h
  · rfl
  · omega
  · omega
  · simp [Fin.ext_iff]; omega

/-- What a completed step leaves of a state: PC as given, both timers ticked, the rest as it was (R107, R108). -/
theorem complete_keeps (s : State) (p : Addr) : KeepsAllBut [.pc, .dt, .st] s (s.complete p) := by
  intro q hq
  cases q <;> simp_all [Part.same]

/-- What taking a fault leaves of a state (R222). -/
theorem takeFault_taken (s : State) (f : Fault) (w : Word) : FaultTaken (faultCode f) w s (s.takeFault f w) := by
  refine ⟨rfl, rfl, fun q hq => ?_⟩
  cases q <;> simp_all [Part.same]

/-- What suspending leaves of a state (R113). -/
theorem suspend_keeps (s : State) (r : Reg) : KeepsAllBut [.await] s (s.suspend r) := by
  intro q hq
  cases q <;> simp_all [Part.same]

/-- What a register write leaves of a state. -/
theorem setReg_keeps (s : State) (x : Reg) (b : Byte) : KeepsAllBut [.regs] s (s.setReg x b) := by
  intro q hq
  cases q <;> simp_all [Part.same]

/-- The keypad latch and the sampling do not change what the fetch reads. -/
@[simp] theorem fetchWord_latch (s : State) : fetchWord s.sample.latchKeys = fetchWord s := by
  simp [fetchWord]

/-- A step taken while halted (R102). -/
theorem step_halted {s : State} (h : s.halted = true) : step s = .next s.sample := by
  simp [step, h]

/-- A step taken while suspended (R104). -/
theorem step_suspended {s : State} (h : s.halted = false) {r : Reg} (ha : s.await = some r) :
    step s = .next (suspendedStep r s.sample.latchKeys) := by
  simp [step, h, ha]

/-- A step that fetches (R105, R106). -/
theorem step_running {s : State} (h : s.halted = false) (ha : s.await = none) :
    step s = exec (decode (fetchWord s)) s.sample.latchKeys := by
  simp [step, h, ha]

/-- No step reads the record of an earlier one (R101). -/
theorem step_setInp (s : State) (a : StepIn) : step (s.setInp a) = step s := by
  simp [step, sample_setInp]

/-- The word placed by `withFetchWord` is the word the next step runs. -/
theorem step_withFetchWord {s : State} (h : s.mem.wf = true) (nbits w : Nat) :
    step (s.withFetchWord nbits w) = exec (decode (tableWord nbits w)) (s.withFetchWord nbits w).sample.latchKeys := by
  have hf : fetchWord (s.withFetchWord nbits w) = tableWord nbits w := fetch_placeWord h _
  rw [step_running rfl rfl, hf]

end Sys2Proof.Machine
end

