-- ==== Sys2Proof/Laws/Ends.lean ====
section
/-! SUPPORT. How a handler ends, said once: what a completed step is in the terms of Safety.lean, the three ends of `exec`, and what
the input record does to a step. The provers cite these instead of unfolding `exec`. -/

namespace Sys2Proof.Machine

/-! ### Numbers -/

theorem toNat_nextPc (s : State) : s.nextPc.toNat = (s.pc.toNat + 2) % 65536 := by
  simp [State.nextPc, BitVec.toNat_add]

theorem toNat_skipPc (s : State) (c : Bool) :
    (s.skipPc c).toNat = (s.pc.toNat + (if c = true then 4 else 2)) % 65536 := by
  cases c <;> simp [State.skipPc, State.nextPc, BitVec.toNat_add]

theorem toNat_flagByte (b : Bool) : (flagByte b).toNat = if b = true then 1 else 0 := by
  cases b <;> rfl

theorem toNat_keyByte (k : Key) : (keyByte k).toNat = k.val := by
  simp [keyByte]; omega

/-! ### Ends that complete (R107, R108) -/

theorem KeepsAllBut.refl (parts : List Part) (s : State) : KeepsAllBut parts s s := by
  intro q _
  cases q <;> simp [Part.same]

/-- A handler that changes only the parts `ch`, none of the timers and not the sampled record, then completes. -/
theorem endsDone_of_complete {i : Instr} {s u : State} {p : Addr} {pc : Nat} {ch : List Part}
    (h : exec i s = .next (u.complete p)) (hp : p.toNat = pc % 65536) (hk : KeepsAllBut ch s u) (hdt : u.dt = s.dt)
    (hst : u.st = s.st) (hi : u.inp = s.inp) : EndsDone i s (u.complete p) pc ch := by
  refine ⟨h, hp, ?_, ?_, fun q hq => ?_⟩
  · simp [toNat_tickTimer, hdt, hi]
  · simp [toNat_tickTimer, hst, hi]
  · simp only [List.mem_cons, not_or] at hq
    have := hk q hq.2.2.2
    cases q <;> simp_all [Part.same]

theorem setRegFlag_keeps (s : State) (x : Reg) (b f : Byte) : KeepsAllBut [.regs] s (s.setRegFlag x b f) := by
  intro q hq
  cases q <;> simp_all [Part.same, State.setRegFlag]

/-- A handler that writes V[X] and goes on at PC + 2. -/
theorem finishReg_endsDone {i : Instr} {s : State} {x : Reg} {b : Byte} (h : exec i s = .next (s.finishReg x b)) :
    EndsDone i s (s.finishReg x b) (s.pc.toNat + 2) [.regs] ∧ KeepsRegsBut [x] s (s.finishReg x b) ∧
      (s.finishReg x b).reg x = b := by
  refine ⟨endsDone_of_complete h (toNat_nextPc s) (setReg_keeps s x b) rfl rfl rfl, fun r hr => ?_, ?_⟩
  · simp_all [State.finishReg]
  · simp [State.finishReg]

/-- A handler that writes V[X], then a flag to VF, and goes on at PC + 2 (R141). -/
theorem finishRegFlag_endsDone {i : Instr} {s : State} {x : Reg} {b : Byte} {f : Bool}
    (h : exec i s = .next (s.finishRegFlag x b f)) :
    EndsDone i s (s.finishRegFlag x b f) (s.pc.toNat + 2) [.regs] ∧
      KeepsRegsBut [x, 0xF] s (s.finishRegFlag x b f) ∧ (x ≠ 0xF → (s.finishRegFlag x b f).reg x = b) ∧
      ((s.finishRegFlag x b f).reg 0xF).toNat = if f = true then 1 else 0 := by
  refine ⟨endsDone_of_complete h (toNat_nextPc s) (setRegFlag_keeps s x b _) rfl rfl rfl, fun r hr => ?_, fun hx => ?_, ?_⟩
  · simp_all [State.finishRegFlag, State.setRegFlag, flagReg]
  · simp [State.finishRegFlag, State.setRegFlag, flagReg, hx]
  · simp [State.finishRegFlag, State.setRegFlag, flagReg, toNat_flagByte]

theorem loadRegs_keeps (s : State) (base n : Nat) : KeepsAllBut [.regs] s (loadRegs s base n) := by
  rw [loadRegs_eq]
  intro q hq
  cases q <;> simp_all [Part.same]
  all_goals (intros; rfl)

/-- The sprite bits of `drawSprite_spec` in the terms of Safety.lean. -/
theorem spriteBit_iff_covers (s : State) (x y : Reg) (n px py : Nat) :
    spriteBit s.mem s.i.toNat (s.reg x).toNat (s.reg y).toNat px py n ↔ SpriteCovers s x y n px py := by
  constructor
  · rintro ⟨r, hr, hy, c, hc, hx, hb⟩
    exact ⟨r, c, hr, hc, hx, hy, hb⟩
  · rintro ⟨r, c, hr, hc, hx, hy, hb⟩
    exact ⟨r, hr, hy, c, hc, hx, hb⟩

/-! ### The three ends of a handler (R106) -/

/-- What a handler that ends done leaves: the latches, AWAIT, KEYS and the record as they were, memory in canonical form, each timer
ticked unless the instruction writes it, and it was no RET on an empty stack and no CALL on a full one. -/
structure DoneEnd (i : Instr) (s t : State) : Prop where
  halted : t.halted = s.halted
  fault : t.fault = s.fault
  await : t.await = s.await
  keys : t.keys = s.keys
  memory : s.mem.wf = true → t.mem.wf = true
  dt : (∀ x, i ≠ .ldDtVx x) → t.dt = tickTimer s.inp.dtDue s.dt
  st : (∀ x, i ≠ .ldStVx x) → t.st = tickTimer s.inp.stDue s.st
  notRet : ∀ n, i = .ret n → s.sp ≠ none
  notCall : ∀ nnn, i = .call nnn → spPush s.sp ≠ none

/-- What a handler that takes a fault leaves (R120, R122). -/
def FaultEnd (i : Instr) (s t : State) : Prop :=
  ((∃ n, i = .ret n) ∧ s.sp = none ∧ t = s.takeFault .stackUnderflow (encode i)) ∨
    ((∃ nnn, i = .call nnn) ∧ spPush s.sp = none ∧ t = s.takeFault .stackOverflow (encode i))

/-- What a handler that suspends leaves (R183). -/
def WaitEnd (i : Instr) (s t : State) : Prop := ∃ x, i = .ldVxK x ∧ s.inp.keyEvent = none ∧ t = s.suspend x

/-- Everything `exec` can do: a next state, reached by one of the three ends. -/
theorem exec_ends (i : Instr) (s : State) :
    ∃ t, exec i s = .next t ∧ (FaultEnd i s t ∨ WaitEnd i s t ∨ DoneEnd i s t) := by
  cases i
  case ret n =>
    simp only [exec, execRet]
    cases h : s.sp with
    | none => exact ⟨_, rfl, .inl (.inl ⟨⟨n, rfl⟩, h, rfl⟩)⟩
    | some k => exact ⟨_, rfl, .inr (.inr (by constructor <;> simp [h]))⟩
  case call nnn =>
    simp only [exec, execCall]
    cases h : spPush s.sp with
    | none => exact ⟨_, rfl, .inl (.inr ⟨⟨nnn, rfl⟩, h, rfl⟩)⟩
    | some k => exact ⟨_, rfl, .inr (.inr (by constructor <;> simp [h]))⟩
  case ldVxK x =>
    simp only [exec, execLdVxK]
    cases h : s.inp.keyEvent with
    | none => exact ⟨_, rfl, .inr (.inl ⟨x, rfl, h, rfl⟩)⟩
    | some k => exact ⟨_, rfl, .inr (.inr (by constructor <;> simp [State.keyResolved]))⟩
  case ldB x =>
    exact ⟨_, rfl, .inr (.inr (by constructor <;> simp; exact fun h => wf_bcdMem h x))⟩
  case ldMemVx x =>
    exact ⟨_, rfl, .inr (.inr (by constructor <;> simp; exact fun h => (dumpRegs_spec h _ (by omega)).1))⟩
  case ldVxMem x =>
    refine ⟨_, rfl, .inr (.inr ?_)⟩
    rw [loadRegs_eq]
    constructor <;> simp
  all_goals
    exact ⟨_, rfl, .inr (.inr (by
      constructor <;> simp [State.finishReg, State.finishRegFlag, State.setRegFlag]))⟩

/-! ### A step with a given record (R101, R109) -/

theorem stepWith_halted {s : State} (a : StepIn) (h : s.halted = true) :
    stepWith a s = .next { s with inp := a } :=
  step_halted (s := { s with inputs := a :: s.inputs }) h

theorem stepWith_running {s : State} (a : StepIn) (h : s.halted = false) (ha : s.await = none) :
    stepWith a s = exec (decode (fetchWord s)) { s with inp := a, keys := a.keys } := by
  unfold stepWith
  rw [step_running (by exact h) (by exact ha)]
  rfl

theorem stepWith_suspended {s : State} (a : StepIn) (h : s.halted = false) {r : Reg} (ha : s.await = some r) :
    stepWith a s = .next (suspendedStep r { s with inp := a, keys := a.keys }) := by
  unfold stepWith
  rw [step_suspended (by exact h) (by exact ha)]
  rfl

/-! ### The record and the other operations do not meet, but in the tick -/

theorem loadRegs_setInp (s : State) (a : StepIn) (base n : Nat) :
    loadRegs (s.setInp a) base n = (loadRegs s base n).setInp a := by
  induction n with
  | zero => rfl
  | succ n ih => simp only [loadRegs, ih]; rfl

theorem dumpRegs_setInp (s : State) (a : StepIn) (base n : Nat) :
    dumpRegs (s.setInp a) base n = dumpRegs s base n := by
  induction n with
  | zero => rfl
  | succ n ih => simp only [dumpRegs, ih]; rfl

/-- What FX55 stores depends on V0 to V(n − 1) and memory alone. -/
theorem dumpRegs_congr {s s' : State} (hm : s'.mem = s.mem) (base : Nat) {n : Nat}
    (hr : ∀ k, k < n → s'.reg (regNo k) = s.reg (regNo k)) : dumpRegs s' base n = dumpRegs s base n := by
  induction n with
  | zero => exact hm
  | succ n ih => simp only [dumpRegs, ih fun k hk => hr k (by omega), hr n (by omega)]

/-- A register that FX65 does not load may be written before or after it. -/
theorem loadRegs_setReg (s : State) (base : Nat) {n : Nat} (hn : n ≤ 16) {r : Reg} (hr : n ≤ r.val) (b : Byte) :
    loadRegs (s.setReg r b) base n = (loadRegs s base n).setReg r b := by
  induction n with
  | zero => rfl
  | succ n ih =>
    have hne : r ≠ regNo n := fun e => by
      have : (regNo n).val = n := Nat.mod_eq_of_lt (by omega)
      rw [e, this] at hr
      omega
    simp only [loadRegs, ih (by omega) (by omega), setReg_mem, setReg_comm _ hne]

/-- What FX65 loads depends on the registers and memory alone. -/
theorem loadRegs_congr {s s' : State} (hv : s'.v = s.v) (hm : s'.mem = s.mem) (base n : Nat) :
    (loadRegs s' base n).v = (loadRegs s base n).v := by
  induction n with
  | zero => exact hv
  | succ n ih => simp only [loadRegs, State.setReg, ih, hm]

/-- FX65 from a state with the registers, memory and I of `s`: the registers of `s` loaded, the rest its own. -/
theorem exec_ldVxMem_congr {s s' : State} (x : Reg) (hv : s'.v = s.v) (hm : s'.mem = s.mem) (hi : s'.i = s.i) :
    exec (.ldVxMem x) s' =
      .next (State.complete { s' with v := (loadRegs s s.i.toNat (x.val + 1)).v } s'.nextPc) := by
  simp only [exec, execLdVxMem]
  rw [loadRegs_eq, loadRegs_congr hv hm, hi]

/-- FX55 from a state with the registers, memory and I of `s`: the memory of `s` dumped to, the rest its own. -/
theorem exec_ldMemVx_congr {s s' : State} (x : Reg) (hv : s'.v = s.v) (hm : s'.mem = s.mem) (hi : s'.i = s.i) :
    exec (.ldMemVx x) s' = .next ((s'.setMem (dumpRegs s s.i.toNat x.val)).complete s'.nextPc) := by
  simp only [exec, execLdMemVx, hi]
  rw [dumpRegs_congr hm _ fun k _ => by simp only [State.reg, hv]]

theorem complete_setInp (s : State) (a : StepIn) (p : Addr) (h1 : a.dtDue = s.inp.dtDue)
    (h2 : a.stDue = s.inp.stDue) : (s.setInp a).complete p = (s.complete p).setInp a := by
  simp [State.complete, State.tick, State.setInp, h1, h2]

end Sys2Proof.Machine
end

