-- ==== Sys2Proof/Laws/PerInstr.lean ====
section
/-! SUPPORT. Statements about the instruction as syntax, one lemma per constructor: the family `OwnRow`. -/

namespace Sys2Proof.Laws.OwnRow

/-- The match and mask columns of an instruction's row (spec/30_encoding.md R80). -/
def rowOf (i : Instr) : OpcodeRow := opcodeMap.getD (i.row - 1) ⟨0, 0, 0⟩

/-- An instruction's word has the fixed bits of its own row: `(w AND mask) = match` (R80). -/
def Statement (i : Instr) : Prop := encode i &&& (rowOf i).mask = (rowOf i).matchBits

/-- The fixed bits of a row that fixes the family alone. -/
theorem and_family {w : Word} {f : Nibble} (h : fieldF w = f) : w &&& 0xF000#16 = f ++ 0x000#12 := by
  subst h
  apply BitVec.eq_of_getLsbD_eq; intro j hj
  simp only [fieldF, BitVec.getLsbD_append, BitVec.getLsbD_extractLsb', BitVec.getLsbD_and]
  interval_cases j <;> simp

/-- The fixed bits of a row that fixes the family and the low byte. -/
theorem and_family_byte {w : Word} {f : Nibble} {nn : Byte} (h : fieldF w = f) (hn : fieldNN w = nn) :
    w &&& 0xF0FF#16 = f ++ 0x0#4 ++ nn := by
  subst h hn
  apply BitVec.eq_of_getLsbD_eq; intro j hj
  simp only [fieldF, fieldNN, BitVec.getLsbD_append, BitVec.getLsbD_extractLsb', BitVec.getLsbD_and]
  interval_cases j <;> simp

/-- The fixed bits of a row that fixes the family and the low nibble. -/
theorem and_family_nibble {w : Word} {f n : Nibble} (h : fieldF w = f) (hn : fieldN w = n) :
    w &&& 0xF00F#16 = f ++ 0x00#8 ++ n := by
  subst h hn
  apply BitVec.eq_of_getLsbD_eq; intro j hj
  simp only [fieldF, fieldN, BitVec.getLsbD_append, BitVec.getLsbD_extractLsb', BitVec.getLsbD_and]
  interval_cases j <;> simp

theorem cls (n : Nibble) : Statement (.cls n) := and_family_byte (fieldF_wordXNN _ _ _) (fieldNN_wordXNN _ _ _)
theorem ret (n : Nibble) : Statement (.ret n) := and_family_byte (fieldF_wordXNN _ _ _) (fieldNN_wordXNN _ _ _)
theorem jp (nnn : Addr12) : Statement (.jp nnn) := and_family (fieldF_wordNNN _ _)
theorem call (nnn : Addr12) : Statement (.call nnn) := and_family (fieldF_wordNNN _ _)
theorem seImm (x : Reg) (nn : Byte) : Statement (.seImm x nn) := and_family (fieldF_wordXNN _ _ _)
theorem sneImm (x : Reg) (nn : Byte) : Statement (.sneImm x nn) := and_family (fieldF_wordXNN _ _ _)
theorem seReg (x : Reg) (y : Reg) (n : Nibble) : Statement (.seReg x y n) := and_family (fieldF_wordXYN _ _ _ _)
theorem ldImm (x : Reg) (nn : Byte) : Statement (.ldImm x nn) := and_family (fieldF_wordXNN _ _ _)
theorem addImm (x : Reg) (nn : Byte) : Statement (.addImm x nn) := and_family (fieldF_wordXNN _ _ _)
theorem ldReg (x : Reg) (y : Reg) : Statement (.ldReg x y) := and_family_nibble (fieldF_wordXYN _ _ _ _) (fieldN_wordXYN _ _ _ _)
theorem orReg (x : Reg) (y : Reg) : Statement (.orReg x y) := and_family_nibble (fieldF_wordXYN _ _ _ _) (fieldN_wordXYN _ _ _ _)
theorem andReg (x : Reg) (y : Reg) : Statement (.andReg x y) := and_family_nibble (fieldF_wordXYN _ _ _ _) (fieldN_wordXYN _ _ _ _)
theorem xorReg (x : Reg) (y : Reg) : Statement (.xorReg x y) := and_family_nibble (fieldF_wordXYN _ _ _ _) (fieldN_wordXYN _ _ _ _)
theorem addReg (x : Reg) (y : Reg) : Statement (.addReg x y) := and_family_nibble (fieldF_wordXYN _ _ _ _) (fieldN_wordXYN _ _ _ _)
theorem subReg (x : Reg) (y : Reg) : Statement (.subReg x y) := and_family_nibble (fieldF_wordXYN _ _ _ _) (fieldN_wordXYN _ _ _ _)
theorem shr (x : Reg) (y : Nibble) : Statement (.shr x y) := and_family_nibble (fieldF_wordXYN _ _ _ _) (fieldN_wordXYN _ _ _ _)
theorem subnReg (x : Reg) (y : Reg) : Statement (.subnReg x y) := and_family_nibble (fieldF_wordXYN _ _ _ _) (fieldN_wordXYN _ _ _ _)
theorem shl (x : Reg) (y : Nibble) : Statement (.shl x y) := and_family_nibble (fieldF_wordXYN _ _ _ _) (fieldN_wordXYN _ _ _ _)
theorem sneReg (x : Reg) (y : Reg) (n : Nibble) : Statement (.sneReg x y n) := and_family (fieldF_wordXYN _ _ _ _)
theorem ldI (nnn : Addr12) : Statement (.ldI nnn) := and_family (fieldF_wordNNN _ _)
theorem jpV0 (nnn : Addr12) : Statement (.jpV0 nnn) := and_family (fieldF_wordNNN _ _)
theorem rnd (x : Reg) (nn : Byte) : Statement (.rnd x nn) := and_family (fieldF_wordXNN _ _ _)
theorem drw (x : Reg) (y : Reg) (n : Fin 16) : Statement (.drw x y n) := and_family (fieldF_wordXYN _ _ _ _)
theorem skp (x : Reg) : Statement (.skp x) := and_family_byte (fieldF_wordXNN _ _ _) (fieldNN_wordXNN _ _ _)
theorem sknp (x : Reg) : Statement (.sknp x) := and_family_byte (fieldF_wordXNN _ _ _) (fieldNN_wordXNN _ _ _)
theorem ldVxDt (x : Reg) : Statement (.ldVxDt x) := and_family_byte (fieldF_wordXNN _ _ _) (fieldNN_wordXNN _ _ _)
theorem ldVxK (x : Reg) : Statement (.ldVxK x) := and_family_byte (fieldF_wordXNN _ _ _) (fieldNN_wordXNN _ _ _)
theorem ldDtVx (x : Reg) : Statement (.ldDtVx x) := and_family_byte (fieldF_wordXNN _ _ _) (fieldNN_wordXNN _ _ _)
theorem ldStVx (x : Reg) : Statement (.ldStVx x) := and_family_byte (fieldF_wordXNN _ _ _) (fieldNN_wordXNN _ _ _)
theorem addI (x : Reg) : Statement (.addI x) := and_family_byte (fieldF_wordXNN _ _ _) (fieldNN_wordXNN _ _ _)
theorem ldF (x : Reg) : Statement (.ldF x) := and_family_byte (fieldF_wordXNN _ _ _) (fieldNN_wordXNN _ _ _)
theorem ldB (x : Reg) : Statement (.ldB x) := and_family_byte (fieldF_wordXNN _ _ _) (fieldNN_wordXNN _ _ _)
theorem ldMemVx (x : Reg) : Statement (.ldMemVx x) := and_family_byte (fieldF_wordXNN _ _ _) (fieldNN_wordXNN _ _ _)
theorem ldVxMem (x : Reg) : Statement (.ldVxMem x) := and_family_byte (fieldF_wordXNN _ _ _) (fieldNN_wordXNN _ _ _)
theorem sys (nnn : Addr12) : Statement (.sys nnn) := and_family (fieldF_wordNNN _ _)
theorem ignored8 (x : Nibble) (y : Nibble) (n : Nibble) : Statement (.ignored8 x y n) := and_family (fieldF_wordXYN _ _ _ _)
theorem ignoredE (x : Nibble) (nn : Byte) : Statement (.ignoredE x nn) := and_family (fieldF_wordXNN _ _ _)
theorem ignoredF (x : Nibble) (nn : Byte) : Statement (.ignoredF x nn) := and_family (fieldF_wordXNN _ _ _)

end Sys2Proof.Laws.OwnRow
end

