-- ==== Sys2Proof/Tests/Slice0.lean ====
section
/-! SUPPORT. Tests of one step or one word each, with results taken from spec/95_test_vectors.md (the vector is named in each comment) or
written out from the encodings of spec/30_encoding.md R80; the smoke test of WellFormed; and a witness for every statement that
has hypotheses. -/

namespace Sys2Proof.Tests

open Sys2Proof.Machine

/-! ## Helpers -/

/-- The reset state with some registers written. -/
def withRegs (rs : List (Reg × Byte)) : State := rs.foldl (fun s p => s.setReg p.1 p.2) State.reset

/-- A state with some bytes of memory written. -/
def withBytes (s : State) (bs : List (Nat × Byte)) : State :=
  { s with mem := bs.foldl (fun m p => m.write p.1 p.2) s.mem }

/-- One step of the word `w` placed at PC, with the record `a`. -/
def stepOf (w : Nat) (a : StepIn) (s : State) : State :=
  match stepWith a { s with mem := placeWord s.mem s.pc (BitVec.ofNat 16 w) } with
  | .next t => t
  | .fault _ => s
  | .refused _ => s

/-- One step of the word `w` placed at PC, with all inputs 0 or none. -/
def quietStep (w : Nat) (s : State) : State := stepOf w quietInput s

/-- The set pixels of a framebuffer, as their port indexes `64 × y + x`, in a given list. -/
def setPixels (ps : List (Nat × Nat)) : Framebuffer :=
  ps.foldl (fun fb p => Framebuffer.flip fb p.1 p.2) 0

/-! ## Decoding: one word of each row, written out from R80 -/

theorem test_decode_cls : decodeTableWord 16 0x00E0 = some (.cls 0x0#4) := by decide
theorem test_decode_ret : decodeTableWord 16 0x00EE = some (.ret 0x0#4) := by decide
theorem test_decode_jp : decodeTableWord 16 0x1234 = some (.jp 0x234#12) := by decide
theorem test_decode_call : decodeTableWord 16 0x2FFE = some (.call 0xFFE#12) := by decide
theorem test_decode_seImm : decodeTableWord 16 0x3A3C = some (.seImm 0xA 0x3C#8) := by decide
theorem test_decode_sneImm : decodeTableWord 16 0x4106 = some (.sneImm 1 0x06#8) := by decide
theorem test_decode_seReg : decodeTableWord 16 0x523F = some (.seReg 2 3 0xF#4) := by decide
theorem test_decode_ldImm : decodeTableWord 16 0x6A3C = some (.ldImm 0xA 0x3C#8) := by decide
theorem test_decode_addImm : decodeTableWord 16 0x7F01 = some (.addImm 0xF 0x01#8) := by decide
theorem test_decode_ldReg : decodeTableWord 16 0x8120 = some (.ldReg 1 2) := by decide
theorem test_decode_orReg : decodeTableWord 16 0x8121 = some (.orReg 1 2) := by decide
theorem test_decode_andReg : decodeTableWord 16 0x8122 = some (.andReg 1 2) := by decide
theorem test_decode_xorReg : decodeTableWord 16 0x8123 = some (.xorReg 1 2) := by decide
theorem test_decode_addReg : decodeTableWord 16 0x8F04 = some (.addReg 0xF 0) := by decide
theorem test_decode_subReg : decodeTableWord 16 0x8015 = some (.subReg 0 1) := by decide
theorem test_decode_shr : decodeTableWord 16 0x80A6 = some (.shr 0 0xA#4) := by decide
theorem test_decode_subnReg : decodeTableWord 16 0x8017 = some (.subnReg 0 1) := by decide
theorem test_decode_shl : decodeTableWord 16 0x8F1E = some (.shl 0xF 0x1#4) := by decide
theorem test_decode_sneReg : decodeTableWord 16 0x9231 = some (.sneReg 2 3 0x1#4) := by decide
theorem test_decode_ldI : decodeTableWord 16 0xA500 = some (.ldI 0x500#12) := by decide
theorem test_decode_jpV0 : decodeTableWord 16 0xB206 = some (.jpV0 0x206#12) := by decide
theorem test_decode_rnd : decodeTableWord 16 0xC00F = some (.rnd 0 0x0F#8) := by decide
theorem test_decode_drw : decodeTableWord 16 0xD0A1 = some (.drw 0 0xA 1) := by decide
theorem test_decode_skp : decodeTableWord 16 0xE59E = some (.skp 5) := by decide
theorem test_decode_sknp : decodeTableWord 16 0xE5A1 = some (.sknp 5) := by decide
theorem test_decode_ldVxDt : decodeTableWord 16 0xF107 = some (.ldVxDt 1) := by decide
theorem test_decode_ldVxK : decodeTableWord 16 0xF30A = some (.ldVxK 3) := by decide
theorem test_decode_ldDtVx : decodeTableWord 16 0xF215 = some (.ldDtVx 2) := by decide
theorem test_decode_ldStVx : decodeTableWord 16 0xF218 = some (.ldStVx 2) := by decide
theorem test_decode_addI : decodeTableWord 16 0xF21E = some (.addI 2) := by decide
theorem test_decode_ldF : decodeTableWord 16 0xF429 = some (.ldF 4) := by decide
theorem test_decode_ldB : decodeTableWord 16 0xFA33 = some (.ldB 0xA) := by decide
theorem test_decode_ldMemVx : decodeTableWord 16 0xF255 = some (.ldMemVx 2) := by decide
theorem test_decode_ldVxMem : decodeTableWord 16 0xF265 = some (.ldVxMem 2) := by decide
theorem test_decode_sys : decodeTableWord 16 0x0123 = some (.sys 0x123#12) := by decide
theorem test_decode_ignored8 : decodeTableWord 16 0x801F = some (.ignored8 0x0#4 0x1#4 0xF#4) := by decide
theorem test_decode_ignoredE : decodeTableWord 16 0xE0A2 = some (.ignoredE 0x0#4 0xA2#8) := by decide
theorem test_decode_ignoredF : decodeTableWord 16 0xF0FF = some (.ignoredF 0x0#4 0xFF#8) := by decide

/-- The X nibble of CLS is not examined (T0.2). -/
theorem test_decode_cls_any : decode 0x05E0#16 = .cls 0x5#4 := by decide
/-- Two bytes are consumed, the first more significant (R53, R70). -/
theorem test_decodeBytes : decodeBytes [0x6A, 0x3C, 0x12] = .ok (.ldImm 0xA 0x3C#8, [0x12]) := rfl
/-- A byte string shorter than an instruction is rejected by name. -/
theorem test_decodeBytes_short : decodeBytes [0x6A] = .error .truncated ∧ decodeBytes [] = .error .truncated := ⟨rfl, rfl⟩

/-! ## WellFormed: an ill-formed term for each check -/

theorem test_illFormed_sys : (Instr.sys 0x1E0#12).wellFormed = false ∧ (Instr.sys 0xFEE#12).wellFormed = false := by decide
theorem test_illFormed_ignored8 :
    (Instr.ignored8 1 2 0x0#4).wellFormed = false ∧ (Instr.ignored8 1 2 0xE#4).wellFormed = false := by decide
theorem test_illFormed_ignoredE :
    (Instr.ignoredE 1 0x9E#8).wellFormed = false ∧ (Instr.ignoredE 1 0xA1#8).wellFormed = false := by decide
theorem test_illFormed_ignoredF :
    (Instr.ignoredF 1 0x07#8).wellFormed = false ∧ (Instr.ignoredF 1 0x65#8).wellFormed = false := by decide

/-! ## One step each -/

/-- T0.1 -/
theorem test_cls :
    (quietStep 0x00E0 { State.reset with fb := setPixels [(0, 0), (63, 31), (10, 5)] }).fb = 0 := by decide +kernel

/-- T0.4 -/
theorem test_ret :
    let t := quietStep 0x00EE ({ State.reset with pc := 0x300 }.push 0 0x202)
    t.pc = 0x202 ∧ t.sp = none ∧ t.entry 0 = 0x202 := by decide
/-- T0.7 -/
theorem test_ret_underflow :
    let t := quietStep 0x00EE { State.reset with pc := 0x300 }
    t.halted = true ∧ t.fault = some ⟨0x02, 0x300, 0x00EE⟩ ∧ t.pc = 0x300 ∧ t.sp = none := by decide

/-- T1.1 -/
theorem test_jp : (quietStep 0x1234 State.reset).pc = 0x234 := by decide
/-- T1.2 -/
theorem test_jp_ticks :
    (stepOf 0x1200 { quietInput with dtDue := true } (State.reset.setDt 3)).dt = 2 := by decide

/-- T2.2 -/
theorem test_call :
    let t := quietStep 0x2400 ({ State.reset with pc := 0x300 }.push 0 0x202)
    t.pc = 0x400 ∧ t.sp = some 1 ∧ t.entry 1 = 0x302 ∧ t.entry 0 = 0x202 := by decide
/-- T2.5 -/
theorem test_call_overflow :
    let s := { State.reset with pc := 0x340, sp := some 15, dt := 5 }
    let t := stepOf 0x2300 { quietInput with keys := 1, dtDue := true } s
    t.halted = true ∧ t.fault = some ⟨0x01, 0x340, 0x2300⟩ ∧ t.keys = 1 ∧ t.dt = 5 ∧ t.pc = 0x340 := by decide

/-- TB.3 -/
theorem test_jpV0 : (quietStep 0xBFFF (withRegs [(0, 0xFF)])).pc = 0x10FE := by decide

/-- T3.1 -/
theorem test_seImm_equal : (quietStep 0x3A3C { withRegs [(0xA, 0x3C)] with pc := 0x208 }).pc = 0x20C := by decide
/-- T3.4 -/
theorem test_seImm_wraps : (quietStep 0x3000 { State.reset with pc := 0xFFFC }).pc = 0x0000 := by decide
/-- T4.1 -/
theorem test_sneImm_unequal : (quietStep 0x4106 (withRegs [(1, 5)])).pc = 0x204 := by decide
/-- T4.2 -/
theorem test_sneImm_equal : (quietStep 0x4106 (withRegs [(1, 6)])).pc = 0x202 := by decide
/-- T5.3 -/
theorem test_seReg_equal : (quietStep 0x523F (withRegs [(2, 0x7F), (3, 0x7F)])).pc = 0x204 := by decide
/-- T5.2 -/
theorem test_seReg_unequal : (quietStep 0x5230 (withRegs [(2, 0x7F), (3, 0x7E)])).pc = 0x202 := by decide
/-- T9.3 -/
theorem test_sneReg_unequal : (quietStep 0x9231 (withRegs [(2, 1), (3, 2)])).pc = 0x204 := by decide
/-- T9.4 -/
theorem test_sneReg_same : (quietStep 0x9440 (withRegs [(4, 0x11)])).pc = 0x202 := by decide

/-- T6.1 -/
theorem test_ldImm : (quietStep 0x6A3C State.reset).reg 0xA = 0x3C := by decide
/-- T7.2, with VF = 1 before: not written -/
theorem test_addImm_wraps :
    let t := quietStep 0x7001 (withRegs [(0, 0xFF), (0xF, 1)])
    t.reg 0 = 0x00 ∧ t.reg 0xF = 1 := by decide
/-- TC.1 -/
theorem test_rnd : (stepOf 0xC00F { quietInput with rand := 0xAB } State.reset).reg 0 = 0x0B := by decide

/-- T8.1 -/
theorem test_ldReg : (quietStep 0x8120 (withRegs [(2, 0x9C)])).reg 1 = 0x9C := by decide
/-- T8.3 -/
theorem test_orReg :
    let t := quietStep 0x8121 (withRegs [(1, 0xF0), (2, 0x0F), (0xF, 1)])
    t.reg 1 = 0xFF ∧ t.reg 0xF = 1 := by decide
/-- T8.4 -/
theorem test_andReg : (quietStep 0x8122 (withRegs [(1, 0xF3), (2, 0x3C)])).reg 1 = 0x30 := by decide
/-- T8.6 -/
theorem test_xorReg : (quietStep 0x8123 (withRegs [(1, 0xA5), (2, 0x0F)])).reg 1 = 0xAA := by decide
/-- T8.13 -/
theorem test_addReg_reads_old_vf :
    let t := quietStep 0x80F4 (withRegs [(0, 1), (0xF, 1)])
    t.reg 0 = 0x02 ∧ t.reg 0xF = 0 := by decide
/-- T8.11 -/
theorem test_addReg_flag_wins : (quietStep 0x8F04 (withRegs [(0, 0x64), (0xF, 0xC8)])).reg 0xF = 1 := by decide
/-- T8.14 -/
theorem test_subReg_borrow :
    let t := quietStep 0x8015 (withRegs [(0, 0x0A), (1, 0x0B), (0xF, 1)])
    t.reg 0 = 0xFF ∧ t.reg 0xF = 0 := by decide
/-- T8.16 -/
theorem test_subReg_equal :
    let t := quietStep 0x8015 (withRegs [(0, 5), (1, 5)])
    t.reg 0 = 0 ∧ t.reg 0xF = 1 := by decide
/-- T8.20 -/
theorem test_shr_ignores_y :
    let t := quietStep 0x8016 (withRegs [(0, 4), (1, 0xFF)])
    t.reg 0 = 2 ∧ t.reg 0xF = 0 := by decide
/-- T8.21 -/
theorem test_shr_flag_wins : (quietStep 0x8F06 (withRegs [(0xF, 3)])).reg 0xF = 1 := by decide
/-- T8.22 -/
theorem test_subnReg :
    let t := quietStep 0x8017 (withRegs [(0, 0x0A), (1, 0x0B)])
    t.reg 0 = 0x01 ∧ t.reg 0xF = 1 := by decide
/-- T8.23 -/
theorem test_subnReg_borrow :
    let t := quietStep 0x8017 (withRegs [(0, 0x0B), (1, 0x0A)])
    t.reg 0 = 0xFF ∧ t.reg 0xF = 0 := by decide
/-- T8.25 -/
theorem test_shl :
    let t := quietStep 0x800E (withRegs [(0, 0x81)])
    t.reg 0 = 0x02 ∧ t.reg 0xF = 1 := by decide
/-- T8.27 -/
theorem test_shl_flag_wins : (quietStep 0x8F0E (withRegs [(0xF, 0x80)])).reg 0xF = 1 := by decide
/-- T8.29 -/
theorem test_ignored8 :
    stepOf 0x801F { quietInput with dtDue := true } (State.reset.setDt 2) =
      { (withBytes State.reset [(0x200, 0x80), (0x201, 0x1F)]).setDt 1 with
        pc := 0x202, inp := { quietInput with dtDue := true } } := by decide +kernel

/-- TA.1 -/
theorem test_ldI : (quietStep 0xA500 State.reset).i = 0x500 := by decide
/-- TA.3 -/
theorem test_addI_above_fff :
    let t := quietStep 0xF21E ((withRegs [(2, 5)]).setI 0xFFE)
    t.i = 0x1003 ∧ t.reg 0xF = 0 := by decide
/-- TA.4 -/
theorem test_addI_wraps : (quietStep 0xF01E ((withRegs [(0, 2)]).setI 0xFFFF)).i = 0x0001 := by decide
/-- TA.6 -/
theorem test_ldF_unmasked : (quietStep 0xF429 (withRegs [(4, 0xFF)])).i = 0x4FB := by decide
/-- TA.7 -/
theorem test_ldB :
    let t := quietStep 0xF033 ((withRegs [(0, 0xFE)]).setI 0x300)
    t.mem.read 0x300 = 2 ∧ t.mem.read 0x301 = 5 ∧ t.mem.read 0x302 = 4 ∧ t.i = 0x300 := by decide
/-- TA.10 -/
theorem test_ldB_wraps :
    let t := quietStep 0xF033 ((withRegs [(0, 0x7B)]).setI 0xFFE)
    t.mem.read 0xFFE = 1 ∧ t.mem.read 0xFFF = 2 ∧ t.mem.read 0x000 = 3 := by decide
/-- TA.11: V2 is not stored -/
theorem test_ldMemVx :
    let t := quietStep 0xF255 ((withRegs [(0, 0x11), (1, 0x22), (2, 0x33)]).setI 0x400)
    t.mem.read 0x400 = 0x11 ∧ t.mem.read 0x401 = 0x22 ∧ t.mem.read 0x402 = 0 ∧ t.i = 0x400 := by decide
/-- TA.14: V2 is loaded, V3 is not -/
theorem test_ldVxMem :
    let s := withBytes (State.reset.setI 0x300) [(0x300, 2), (0x301, 5), (0x302, 4), (0x303, 9)]
    let t := quietStep 0xF265 s
    t.reg 0 = 2 ∧ t.reg 1 = 5 ∧ t.reg 2 = 4 ∧ t.reg 3 = 0 ∧ t.i = 0x300 := by decide
/-- TA.17: the second byte is read from 0x000, the font byte 0xF0 -/
theorem test_ldVxMem_wraps :
    let t := quietStep 0xF165 (withBytes (State.reset.setI 0xFFF) [(0xFFF, 0x42)])
    t.reg 0 = 0x42 ∧ t.reg 1 = 0xF0 := by decide
/-- TA.18 -/
theorem test_ignoredF : (quietStep 0xF0FF State.reset).pc = 0x202 := by decide

/-- TD.3: a sprite that wraps on both axes -/
theorem test_drw_wraps :
    let s := withBytes ((withRegs [(0, 0x3F), (1, 0x1F)]).setI 0x300) [(0x300, 0xC0), (0x301, 0xC0)]
    let t := quietStep 0xD012 s
    t.fb = setPixels [(0, 0), (63, 0), (0, 31), (63, 31)] ∧ t.reg 0xF = 0 := by decide +kernel
/-- TD.9: one collision among 8 pixels -/
theorem test_drw_collision :
    let s := withBytes (State.reset.setI 0x300) [(0x300, 0xFF)]
    let t := quietStep 0xD001 { s with fb := setPixels [(2, 0)] }
    t.fb = setPixels [(0, 0), (1, 0), (3, 0), (4, 0), (5, 0), (6, 0), (7, 0)] ∧ t.reg 0xF = 1 := by decide +kernel

/-- TE.1 -/
theorem test_skp : (stepOf 0xE59E { quietInput with keys := 0x0400 } (withRegs [(5, 0x0A)])).pc = 0x204 := by decide
/-- TE.6: a code above 15 does not read KEYS -/
theorem test_skp_outOfRange :
    (stepOf 0xE59E { quietInput with keys := 0xFFFF } (withRegs [(5, 0x10)])).pc = 0x202 := by decide
/-- TE.3 -/
theorem test_sknp : (quietStep 0xE5A1 (withRegs [(5, 0x0A)])).pc = 0x204 := by decide
/-- TE.7 -/
theorem test_sknp_outOfRange :
    (stepOf 0xE5A1 { quietInput with oorPressed := true } (withRegs [(5, 0x20)])).pc = 0x202 := by decide
/-- TE.8 -/
theorem test_ignoredE : (quietStep 0xE0A2 State.reset).pc = 0x202 := by decide

/-- TF.2: DT is read before the tick -/
theorem test_ldVxDt :
    let t := stepOf 0xF007 { quietInput with dtDue := true } (State.reset.setDt 0x30)
    t.reg 0 = 0x30 ∧ t.dt = 0x2F := by decide
/-- TF.4: DT is written and ticked in the same step -/
theorem test_ldDtVx : (stepOf 0xF015 { quietInput with dtDue := true } (withRegs [(0, 0x3C)])).dt = 0x3B := by decide
/-- TF.5 -/
theorem test_ldStVx : (quietStep 0xF018 (withRegs [(0, 2)])).st = 2 := by decide
/-- TF.7 -/
theorem test_ldVxK_suspends :
    let t := quietStep 0xF30A State.reset
    t.await = some 3 ∧ t.pc = 0x200 := by decide
/-- TF.8 -/
theorem test_ldVxK_event :
    let t := stepOf 0xF30A { quietInput with keyEvent := some 7 } State.reset
    t.await = none ∧ t.reg 3 = 7 ∧ t.pc = 0x202 := by decide
/-- TF.9 -/
theorem test_suspended_waits :
    let s := { State.reset with dt := 5, st := 5, await := some 3 }
    let t := stepOf 0xF30A { quietInput with keys := 0x80, dtDue := true, stDue := true } s
    t.keys = 0x80 ∧ t.dt = 5 ∧ t.st = 5 ∧ t.await = some 3 ∧ t.pc = 0x200 := by decide
/-- TF.10 -/
theorem test_suspended_resolves :
    let s := { State.reset with dt := 5, await := some 3 }
    let t := stepOf 0xF30A { quietInput with keyEvent := some 0xC, dtDue := true } s
    t.reg 3 = 0x0C ∧ t.pc = 0x202 ∧ t.dt = 4 ∧ t.await = none := by decide

/-- T0.11: the word at 0xFFF takes its low byte from 0x000 -/
theorem test_fetch_wraps :
    fetchWord { State.reset with pc := 0xFFF } = 0x00F0 ∧
      (quietStep 0x0000 { State.reset with pc := 0x0FFE }).pc = 0x1000 := by decide
/-- T0.8 -/
theorem test_sys : (quietStep 0x0123 State.reset).pc = 0x202 := by decide
/-- TK.2: the timers tick independently -/
theorem test_tick :
    let t := stepOf 0x6000 { quietInput with stDue := true } { State.reset with dt := 5, st := 5 }
    t.dt = 5 ∧ t.st = 4 := by decide
/-- TK.5: halted, not even KEYS changes -/
theorem test_halted :
    let s := { State.reset with dt := 5, halted := true, fault := some ⟨1, 0x340, 0x2300⟩ }
    let t := stepOf 0x6012 { quietInput with keys := 1, keyEvent := some 3, dtDue := true } s
    t.keys = 0 ∧ t.dt = 5 ∧ t.reg 0 = 0 ∧ t.pc = 0x200 := by decide

/-! ## Load and the ports -/

/-- L4: a load leaves the halted state. -/
theorem test_load_after_fault :
    let s := { State.reset with halted := true, fault := some ⟨0x01, 0x200, 0x2200⟩, sp := some 15 }
    let t := (load [0x00, 0xE0] s).1
    t = { State.reset with mem := [(0x201, 0xE0)] } := by decide +kernel
/-- L2 and L3: 3584 bytes are taken, 3585 are not. -/
theorem test_load_sizes :
    (load (List.replicate 3584 0) State.reset).2 = .ok ∧ (load (List.replicate 3585 0) State.reset).2 = .tooLarge ∧
      (load (List.replicate 3585 0) (withRegs [(3, 9)])).1.reg 3 = 0 := by decide +kernel
/-- FONT is a parameter: another font is what a load installs at 0x000 to 0x04F, and nothing else of it differs (R46, R261). -/
theorem test_load_font :
    let t := (load [0x12, 0x00] State.reset (Vector.replicate 80 0x11)).1
    t.mem.read 0x000 = 0x11 ∧ t.mem.read 0x04F = 0x11 ∧ t.mem.read 0x050 = 0 ∧ t.mem.read 0x200 = 0x12 := by decide +kernel
/-- Glyph A of the default font stands at 0x032 (R46). -/
theorem test_defaultFont_glyphA :
    (List.range 5).map (fun k => State.reset.mem.read (0x032 + k)) = [0xF0, 0x90, 0xF0, 0x90, 0x90] := by decide +kernel
/-- The key event of a halted step is gone: neither queued nor seen by the step after a load (R184, TK.5 and L4). -/
theorem test_halted_event_not_queued :
    let s := { State.reset with
      halted := true, fault := some ⟨0x01, 0x200, 0x2200⟩, inputs := [{ quietInput with keyEvent := some 3 }, quietInput] }
    (match step s with
      | .next t => (match step (load [0xF5, 0x0A] t).1 with | .next u => u.await | _ => none)
      | _ => none) = some 5 := by decide +kernel
/-- The ports of a halted core (R248). -/
theorem test_ports :
    let p := (quietStep 0x00EE { State.reset with pc := 0x300, st := 7 }).outPorts
    p.halted = true ∧ p.faultCode = 2 ∧ p.faultPc = 0x300 ∧ p.faultWord = 0x00EE ∧ p.sound = 7 ∧
      p.awaitingKey = false := by decide

/-- A write of the reset content takes the entry out, so that equal memories are equal data. -/
theorem test_memory_canonical : Memory.write (Memory.write [] 0x1300 5) 0x300 0 = [] := by decide

/-! ## Witnesses: a concrete case that meets all hypotheses of each statement, for each of its clauses -/

theorem witness_DecodeInvertsEncode : (Instr.sys 0x0E1#12).wellFormed = true ∧ (Instr.ignored8 1 2 0xF#4).wellFormed = true ∧
    (Instr.ignoredE 0 0x9F#8).wellFormed = true ∧ (Instr.ignoredF 0 0x66#8).wellFormed = true ∧
    (Instr.drw 0xF 0xF 15).wellFormed = true := by decide

/-- An instruction placed at the last address, its low byte at 0x000. -/
def atTop : State := { State.reset with pc := 0xFFF, mem := placeWord [] 0xFFF 0x6A3C }

theorem witness_StepRunsDecodedInstruction : atTop.halted = false ∧ atTop.await = none ∧
    (Instr.ldImm 0xA 0x3C#8).wellFormed = true ∧ atTop.mem.read atTop.pc.toNat = highByte (encode (.ldImm 0xA 0x3C#8)) ∧
    atTop.mem.read (atTop.pc.toNat + 1) = lowByte (encode (.ldImm 0xA 0x3C#8)) := by decide

/-- A halted core: what `test_ret_underflow` leaves. -/
def haltedState : State := quietStep 0x00EE State.reset

theorem witness_HaltedStepsChangeNothing : haltedState.halted = true := by decide

/-- A suspended core: what `test_ldVxK_suspends` leaves. -/
def waitingState : State := quietStep 0xF30A { State.reset with dt := 5 }

theorem witness_SuspendedStepWaitsForKey : waitingState.halted = false ∧ waitingState.await = some 3 ∧
    quietInput.keyEvent = none ∧ { quietInput with keyEvent := some 0xF }.keyEvent = some 0xF := by decide

theorem witness_RunningStepLatchesKeys : (State.reset.halted = false ∧ State.reset.await = none) ∧
    waitingState.halted = false ∧ waitingState.await = some 3 := by decide +kernel

/-- A halted core, a fault, a suspension and a wait, each with both timers due. -/
theorem witness_UncompletedStepsDoNotTick :
    let a := { quietInput with dtDue := true, stDue := true }
    (stepOf 0x00EE a State.reset).halted = true ∧ (stepOf 0xF30A a State.reset).await ≠ none ∧
      (stepOf 0xF30A a waitingState).await ≠ none ∧ (stepOf 0x6000 a haltedState).halted = true := by decide

/-- Completed steps that write neither timer, that write DT, and that resolve a wait. -/
theorem witness_CompletedStepsTickOnce :
    let a := { quietInput with dtDue := true, stDue := true, keyEvent := some 1 }
    (∀ w ∈ [0x6000, 0xF015, 0xF018], (stepOf w a State.reset).halted = false ∧ (stepOf w a State.reset).await = none) ∧
      (stepOf 0xF30A a waitingState).halted = false ∧ (stepOf 0xF30A a waitingState).await = none ∧
      decode 0xF015#16 = .ldDtVx 0 ∧ decode 0xF018#16 = .ldStVx 0 ∧ (∀ x, decode 0x6000#16 ≠ .ldDtVx x) ∧ (∀ x, decode 0xF015#16 ≠ .ldStVx x) ∧ (∀ x, decode 0xF018#16 ≠ .ldDtVx x) := by
  decide

/-- A self-loop with DT at 5: from it, the first two steps of a run run JP. -/
def loopState : State := { State.reset with dt := 5, mem := placeWord [] 0x200 0x1200, inputs := [quietInput, quietInput] }

theorem witness_DelayTimerFallsAtMostOncePerStep : ∃ t, core.run 2 loopState = .next t ∧
    ∀ j u x, j < 2 → core.run j loopState = .next u → decode (fetchWord u) ≠ .ldDtVx x := by
  have h : step loopState = .next { loopState with inputs := [quietInput] } := rfl
  have h' : step { loopState with inputs := [quietInput] } = .next { loopState with inputs := [] } := rfl
  refine ⟨{ loopState with inputs := [] }, by rw [run_succ h, run_succ h', run_zero], fun j u x hj hu => ?_⟩
  have hw : decode (fetchWord u) = .jp 0x200#12 := by
    obtain rfl | rfl : j = 0 ∨ j = 1 := by omega
    · rw [run_zero] at hu
      cases hu
      decide
    · rw [run_succ h, run_zero] at hu
      cases hu
      decide
  simp [hw]

/-- The invariant holds in the state a fault leaves and in the state a suspension leaves, and each takes a step. -/
theorem witness_StepKeepsInvariant : Inv haltedState ∧ (∃ t, step haltedState = .next t) ∧ Inv waitingState ∧
    (∃ t, step waitingState = .next t) := by
  have d : decode 0x00EE#16 = .ret 0 := by decide
  have hf : haltedState.fault = some ⟨2, 0x200, 0x00EE⟩ := by decide
  refine ⟨⟨by decide, ?_, by decide, by decide, ?_⟩, ⟨_, rfl⟩,
    ⟨by decide, ?_, by decide, by decide, ?_⟩, ⟨_, rfl⟩⟩
  · intro r h
    have : haltedState.await = none := by decide
    simp [this] at h
  · intro f h
    rw [hf] at h
    cases h
    exact ⟨by decide, by decide, .inr ⟨rfl, by decide, 0, d⟩⟩
  · intro r h
    have : waitingState.await = some 3 := by decide
    rw [this] at h
    cases h
    decide
  · intro f h
    have : waitingState.fault = none := by decide
    simp [this] at h

/-- A full stack, a CALL on it, and an empty stack with a RET. -/
theorem witness_FaultsAreExactlyStackFaults :
    let full := { State.reset with sp := some 15, mem := placeWord [] 0x200 0x2300 }
    let empty := { State.reset with mem := placeWord [] 0x200 0x00EE }
    (full.halted = false ∧ full.await = none ∧ decode (fetchWord full) = .call 0x300#12 ∧ spValue full.sp = 15 ∧
      (quietStep 0x2300 full).halted = true) ∧
    (empty.halted = false ∧ empty.await = none ∧ decode (fetchWord empty) = .ret 0x0#4 ∧ spValue empty.sp = -1 ∧
      (quietStep 0x00EE empty).halted = true) ∧
    (quietStep 0x6000 full).halted = false := by decide

theorem witness_RetPopsReturnAddress : State.reset.sp = none ∧ (State.reset.push 0 0x202).sp = some 0 ∧
    (State.reset.push 15 0x202).sp = some 15 := ⟨rfl, rfl, rfl⟩

theorem witness_CallPushesReturnAddress :
    spValue (State.reset.push 15 0).sp = 15 ∧ spValue (State.reset.push 14 0).sp ≠ 15 ∧ spValue State.reset.sp ≠ 15 ∧
      ((0 : Fin 16).val : Int) = spValue State.reset.sp + 1 ∧ ((1 : Fin 16).val : Int) ≠ spValue State.reset.sp + 1 := by decide

/-- The state a CALL from reset leaves is itself a later state with its stack. -/
theorem witness_CallThenRetRoundTrip : spValue State.reset.sp ≠ 15 ∧ ∃ t, exec (.call 0x300#12) State.reset = .next t ∧
    ∃ t' : State, t'.sp = t.sp ∧ (∀ j, t'.entry j = t.entry j) ∧ t'.pc ≠ t.pc :=
  ⟨by decide, _, rfl, { State.reset.push 0 0x202 with pc := 0x400 }, by decide, by decide, by decide⟩

theorem witness_flagClauses : (0 : Reg) ≠ 0xF ∧ (0xE : Reg) ≠ 0xF := by decide

/-- A sprite of one set pixel at (0, 0), over a set pixel; a later state with the screen the first draw left and other registers, in which the
coordinates stand in V1 and V2. -/
theorem witness_DrawTwiceRestoresScreen :
    let s := { withBytes (State.reset.setI 0x300) [(0x300, 0x80)] with fb := Framebuffer.flip 0 0 0 }
    (∃ px py, SpriteCovers s 0xF 0xF 1 px py) ∧
    (∀ px py, px < 64 → py < 32 → SpriteCovers s 0xF 0xF 1 px py → s.fb.pixel px py = true) ∧
    ∃ t, exec (.drw 0xF 0xF 1) s = .next t ∧ ∃ t' : State, t'.fb = t.fb ∧ t'.i = s.i ∧
      (∀ a, t'.mem.read a = s.mem.read a) ∧ t'.reg 1 = s.reg 0xF ∧ t'.reg 2 = s.reg 0xF ∧ t'.reg 0 ≠ s.reg 0 := by
  intro s
  have hb : s.mem.read (s.i.toNat + 0) = 0x80#8 := by decide +kernel
  have h0 : (s.reg 0xF).toNat = 0 := by decide +kernel
  refine ⟨⟨0, 0, 0, 0, by decide, by decide, by rw [h0], by rw [h0], by rw [hb]; decide⟩, ?_, _, rfl,
    (State.setReg { s with fb := (s.drawn 0xF 0xF 1).fb } 0 1), rfl, rfl, fun a => rfl, rfl, rfl, by decide +kernel⟩
  rintro px py _ _ ⟨r, c, hr, hc, rfl, rfl, h⟩
  obtain rfl : r = 0 := by omega
  rw [hb] at h
  have : ∀ c, c < 8 → (0x80#8).getLsbD (7 - c) = true → c = 0 := by decide
  rw [h0, this c hc h]
  decide +kernel

/-- Codes 15 and 16, the two sides of the boundary, each with the answer its clause names. -/
theorem witness_KeySkipsTestSnapshot :
    let s := { withRegs [(1, 15), (2, 16)] with keys := 0x8000#16 }
    ((s.reg 1).toNat ≤ 15 ∧ true = s.keys.getLsbD (s.reg 1).toNat ∧ ¬ (s.reg 1).toNat ≥ 16) ∧
      ((s.reg 2).toNat ≥ 16 ∧ false = s.inp.oorPressed ∧ ¬ (s.reg 2).toNat ≤ 15) := by decide

/-- Both ends of the key codes, and no event, in a state that is not halted. -/
theorem witness_WaitForKeyCompletesOrSuspends : State.reset.halted = false ∧ quietInput.keyEvent = none ∧
    { quietInput with keyEvent := some 0 }.keyEvent = some 0 ∧
    (State.reset.setInp { quietInput with keyEvent := some 0xF }).inp.keyEvent = some 0xF ∧
      State.reset.inp.keyEvent = none := ⟨rfl, rfl, rfl, rfl, rfl⟩

/-- Memory in canonical form with cells at both ends listed, as the memory statements assume. -/
theorem witness_canonicalMemory :
    (withBytes State.reset [(0xFFF, 0x12), (0x000, 0x34), (0x300, 0x56)]).mem = [(0, 0x34), (0x300, 0x56), (0xFFF, 0x12)] ∧
      (withBytes State.reset [(0xFFF, 0x12), (0x000, 0x34), (0x300, 0x56)]).mem.wf = true := by decide

/-- FX33, FX55 and FX65 assume canonical memory; an address next to the stored bytes meets the frame clause, also where they wrap. -/
theorem witness_memoryFrames : State.reset.mem.wf = true ∧
    (∀ k, k < 3 → effAddr 0x303 ≠ effAddr (0x300 + k)) ∧ (∀ k, k < 3 → effAddr 1 ≠ effAddr (0xFFE + k)) ∧
    (∀ k, k < 15 → effAddr 0x40F ≠ effAddr (0x400 + k)) ∧ (0 : Reg) < 1 ∧ (0xE : Reg) < 0xF := by decide

/-- A later state with the memory and the I that a dump left. -/
theorem witness_DumpThenLoadIsAsymmetric : ∃ t, exec (.ldMemVx 2) (State.reset.setI 0x300) = .next t ∧
    ∃ t' : State, t'.i = t.i ∧ t'.mem = t.mem ∧ t' ≠ t :=
  ⟨_, rfl, { State.reset with i := 0x300 }, by decide, by decide, by decide⟩

theorem witness_SysAndIgnoredWordsOnlyAdvance :
    ((0x0E1#12).extractLsb' 0 8 ≠ 0xE0#8 ∧ (0x0E1#12).extractLsb' 0 8 ≠ 0xEE#8) ∧ (8 ≤ (0x8#4).toNat ∧ (0x8#4 : Nibble) ≠ 0xE#4) ∧
      ((0x9F#8 : Byte) ≠ 0x9E#8 ∧ (0x9F#8 : Byte) ≠ 0xA1#8) ∧ 0x66#8 ∉ familyFBytes := by decide

/-- A register an instruction may not write, for each shape of the `writes` column. -/
theorem witness_InstructionsWriteOnlyTheirRegisters :
    ¬ writesReg (.ldImm 0 1) 1 ∧ ¬ writesReg (.addReg 0 1) 1 ∧ ¬ writesReg (.drw 0 1 2) 0 ∧ ¬ writesReg (.ldVxMem 2) 3 ∧
      ¬ writesReg (.jp 0) 0xF := by
  simp only [writesReg]; decide

/-- For each part, an instruction that does not use it. -/
theorem witness_InstructionsReadOnlyTheirParts : Part.keys ∉ usedParts (.drw 0 1 5) ∧ Part.screen ∉ usedParts (.skp 0) ∧
    Part.index ∉ usedParts (.cls 0) ∧ Part.memory ∉ usedParts (.addI 0) ∧ Part.stack ∉ usedParts (.jp 0) ∧
    Part.pc ∉ usedParts (.jpV0 0) ∧ Part.dt ∉ usedParts (.ldDtVx 0) ∧ Part.st ∉ usedParts (.ldStVx 0) ∧
    Part.await ∉ usedParts (.skp 0) ∧ Part.faultLatch ∉ usedParts (.ldVxK 0) ∧ Part.loadError ∉ usedParts (.call 0) := by decide

/-- The registers next to those an instruction uses. -/
theorem witness_InstructionsReadOnlyTheirRegisters :
    (¬ readsReg (.ldMemVx 2) 2 ∧ ¬ writesReg (.ldMemVx 2) 2) ∧ (¬ readsReg (.ldVxMem 2) 3 ∧ ¬ writesReg (.ldVxMem 2) 3) ∧
      (¬ readsReg (.shr 1 2) 2 ∧ ¬ writesReg (.shr 1 2) 2) ∧ ¬ readsReg (.drw 0 1 2) 2 ∧ ¬ writesReg (.drw 0 1 2) 2 := by
  simp only [readsReg, writesReg]; decide

/-- A halted core, and a running one at a 6XNN. -/
theorem witness_UnusedKeyEventsAreNotQueued : haltedState.halted = true ∧
    (let s := { State.reset with mem := placeWord [] 0x200 0x6000 }
     s.await = none ∧ ∀ x, decode (fetchWord s) ≠ .ldVxK x) := by decide +kernel

/-- A record that differs from the sampled one in every input that CXNN does not use. -/
theorem witness_InstructionsReadOnlyTheirInputs :
    sameInputs (.rnd 0 1) { quietInput with keys := 1, keyEvent := some 2, oorPressed := true } State.reset.inp := by
  refine ⟨rfl, rfl, fun _ _ _ => rfl, ?_, ?_⟩
  · intro x h; cases h
  · rintro x (h | h) <;> cases h

theorem witness_CanonicalMemoryIsUnique :
    Memory.wf [(0x300, 5)] = true ∧ Memory.wf (Memory.write (Memory.write [] 0x400 1) 0x300 5) = true ∧
      Memory.write (Memory.write (Memory.write [] 0x400 1) 0x300 5) 0x400 0 = [(0x300, 5)] := by decide

/-- The longest image that fits, the shortest that does not, and the empty one. -/
theorem witness_LoadResetsThenCopiesImage :
    (List.replicate 3584 (0 : Byte)).length ≤ 4096 - 0x200 ∧ 4096 - 0x200 < (List.replicate 3585 (0 : Byte)).length ∧
      ([] : List Byte).length ≤ 4096 - 0x200 := by
  simp only [List.length_replicate, List.length_nil]; decide

end Sys2Proof.Tests
end

section
/-! SUPPORT. The values of the reset state for a FONT (spec/10_state.md R41), item by item, and the obligation they settle. -/

namespace Sys2Proof.Machine

@[simp] theorem resetWith_reg (f : Font) (r : Reg) : (State.resetWith f).reg r = 0 := Vector.getElem_replicate _

@[simp] theorem resetWith_entry (f : Font) (k : Fin 16) : (State.resetWith f).entry k = 0 := Vector.getElem_replicate _

@[simp] theorem resetWith_pixel (f : Font) (x y : Nat) : (State.resetWith f).fb.pixel x y = false := BitVec.getLsbD_zero

@[simp] theorem resetWith_key (f : Font) (k : Nat) : (State.resetWith f).keys.getLsbD k = false := BitVec.getLsbD_zero

/-- The first 80 bytes of memory are the FONT, in its order (R46). -/
theorem resetWith_read_font (f : Font) (a : Nat) (h : a < 80) : (State.resetWith f).mem.read a = f[a] := by
  obtain ⟨-, hfont, -⟩ := fontMemory_spec f
  exact hfont a h

/-- Memory holds 0 above the FONT. -/
theorem resetWith_read_zero (f : Font) (a : Nat) (h : 80 ≤ a) (h' : a < 4096) : (State.resetWith f).mem.read a = 0 := by
  obtain ⟨-, -, hzero⟩ := fontMemory_spec f
  exact hzero a h h'

/-- The reset state of the core is the one at the default FONT: its memory is the only field that could differ. -/
theorem reset_eq_resetWith_default : State.reset = State.resetWith defaultFont := by
  have hmem : State.reset.mem = fontMemory defaultFont := fontMemory_default.symm
  rw [State.resetWith, ← hmem]

/-- Settles O48: the arrays, the screen, the keys and memory by their lemmas, every other item by its field of the reset state. -/
theorem resetStateValues : Obligations.ResetStateValues := by
  unfold Obligations.ResetStateValues
  refine ⟨fun f => ⟨State.resetWith f, rfl, ?_⟩, reset_eq_resetWith_default⟩
  exact ⟨resetWith_reg f, rfl, rfl, rfl, rfl, resetWith_entry f, rfl, rfl, fun x y _ _ => resetWith_pixel f x y,
    resetWith_read_font f, resetWith_read_zero f, resetWith_key f, rfl, rfl, rfl⟩

end Sys2Proof.Machine
end

section
/-! SUPPORT. Two facts about decoding: which words decode to SYS and to the ignored words (spec/30_encoding.md R75 to R78), and that the
word of a decoded instruction is the word itself (spec/40_pipeline.md R112 records it). -/

namespace Sys2Proof

/-! ### The families that are decoded further (R74) -/

theorem decode_of_family0 {w : Word} (h : fieldF w = 0x0#4) : decode w = decode0 w := by simp [decode, h]

theorem decode_of_family8 {w : Word} (h : fieldF w = 0x8#4) : decode w = decode8 w := by simp [decode, h]

theorem decode_of_familyE {w : Word} (h : fieldF w = 0xE#4) : decode w = decodeE w := by simp [decode, h]

theorem decode_of_familyF {w : Word} (h : fieldF w = 0xF#4) : decode w = decodeF w := by simp [decode, h]

/-! ### The catch-all rows -/

/-- Family 0x0 outside the two low bytes of R75. -/
theorem decode_sys {nnn : Addr12} (hcls : nnn.extractLsb' 0 8 ≠ 0xE0#8) (hret : nnn.extractLsb' 0 8 ≠ 0xEE#8) :
    decode (wordNNN 0x0#4 nnn) = .sys nnn := by
  rw [decode_of_family0 (fieldF_wordNNN _ _)]
  simp [decode0, hcls, hret]

/-- Family 0x8 outside the low nibbles of R76. -/
theorem decode_ignored8 (x y : Nibble) {n : Nibble} (hge : 8 ≤ n.toNat) (hshl : n ≠ 0xE#4) :
    decode (wordXYN 0x8#4 x y n) = .ignored8 x y n := by
  have hne : n.toNat ≠ 0xE := fun h => hshl (BitVec.eq_of_toNat_eq h)
  rw [decode_of_family8 (fieldF_wordXYN _ _ _ _)]
  simp only [decode8, fieldX_wordXYN, fieldY_wordXYN, fieldN_wordXYN]
  split
  case h_10 => rfl
  all_goals omega

/-- Family 0xE outside the two low bytes of R77. -/
theorem decode_ignoredE (x : Nibble) {nn : Byte} (hskp : nn ≠ 0x9E#8) (hsknp : nn ≠ 0xA1#8) :
    decode (wordXNN 0xE#4 x nn) = .ignoredE x nn := by
  have hne : nn.toNat ≠ 0x9E := fun h => hskp (BitVec.eq_of_toNat_eq h)
  have hne' : nn.toNat ≠ 0xA1 := fun h => hsknp (BitVec.eq_of_toNat_eq h)
  rw [decode_of_familyE (fieldF_wordXNN _ _ _)]
  simp [decodeE]  -- `hne` and `hne'` are the side conditions of the last branch

/-- Family 0xF outside the nine low bytes of R78. -/
theorem decode_ignoredF (x : Nibble) {nn : Byte} (h : nn ∉ familyFBytes) :
    decode (wordXNN 0xF#4 x nn) = .ignoredF x nn := by
  have hne : ∀ b ∈ familyFBytes, nn.toNat ≠ b.toNat := fun b hb e => h (BitVec.eq_of_toNat_eq e ▸ hb)
  simp only [familyFBytes, List.forall_mem_cons, BitVec.reduceToNat] at hne
  rw [decode_of_familyF (fieldF_wordXNN _ _ _)]
  simp [decodeF, hne]

/-! ### A word is rebuilt from the fields its row fixes and the fields it reads (R72) -/

theorem wordNNN_of_family {w : Word} {f : Nibble} (hf : (fieldF w).toNat = f.toNat) : wordNNN f (fieldNNN w) = w := by
  rw [← BitVec.eq_of_toNat_eq hf, wordNNN_fields]

theorem wordXNN_of_family {w : Word} {f : Nibble} {nn : Byte} (hf : (fieldF w).toNat = f.toNat)
    (hn : (fieldNN w).toNat = nn.toNat) : wordXNN f (fieldX w) nn = w := by
  rw [← BitVec.eq_of_toNat_eq hf, ← BitVec.eq_of_toNat_eq hn, wordXNN_fields]

theorem wordXYN_of_family {w : Word} {f n : Nibble} (hf : (fieldF w).toNat = f.toNat)
    (hn : (fieldN w).toNat = n.toNat) : wordXYN f (fieldX w) (fieldY w) n = w := by
  rw [← BitVec.eq_of_toNat_eq hf, ← BitVec.eq_of_toNat_eq hn, wordXYN_fields]

/-! ### The word of a decoded instruction, by family (R74) -/

theorem encode_decode0 {w : Word} (hf : (fieldF w).toNat = 0x0) : encode (decode0 w) = w := by
  unfold decode0
  split_ifs with hcls hret
  · exact wordXNN_of_family hf (by rw [hcls])
  · exact wordXNN_of_family hf (by rw [hret])
  · exact wordNNN_of_family hf

theorem encode_decode8 {w : Word} (hf : (fieldF w).toNat = 0x8) : encode (decode8 w) = w := by
  unfold decode8
  split
  case h_10 => exact wordXYN_of_family hf rfl
  all_goals
    simp only [encode, regBits_regOf]
    exact wordXYN_of_family hf ‹_›

theorem encode_decodeE {w : Word} (hf : (fieldF w).toNat = 0xE) : encode (decodeE w) = w := by
  unfold decodeE
  split
  case h_3 => exact wordXNN_of_family hf rfl
  all_goals
    simp only [encode, regBits_regOf]
    exact wordXNN_of_family hf ‹_›

theorem encode_decodeF {w : Word} (hf : (fieldF w).toNat = 0xF) : encode (decodeF w) = w := by
  unfold decodeF
  split
  case h_10 => exact wordXNN_of_family hf rfl
  all_goals
    simp only [encode, regBits_regOf]
    exact wordXNN_of_family hf ‹_›

/-- The word of a decoded instruction is the word it was decoded from. -/
theorem encode_decode (w : Word) : encode (decode w) = w := by
  unfold decode
  split
  case h_1 hf => exact encode_decode0 hf
  case h_9 hf => exact encode_decode8 hf
  case h_15 hf => exact encode_decodeE hf
  case h_16 =>
    have hlt := (fieldF w).isLt
    have hf : (fieldF w).toNat = 0xF := by
      simp only [imp_false] at *
      omega
    exact encode_decodeF hf
  case h_2 hf | h_3 hf | h_11 hf | h_12 hf => exact wordNNN_of_family hf
  case h_6 hf | h_10 hf | h_14 hf =>
    simp only [encode, regBits_regOf]
    exact wordXYN_of_family hf rfl
  all_goals
    simp only [encode, regBits_regOf]
    exact wordXNN_of_family ‹_› rfl

end Sys2Proof
end

section
/-! SUPPORT. What relates two states compose: agreement on a part, and the frame `KeepsAllBut`. Then the frames of the keypad latch and of
FX0A with a key event (spec/40_pipeline.md R103, R104), KEYS over a step, runs of a halted core, and which handlers take a fault. -/

namespace Sys2Proof.Machine

/-! ### Frames -/

theorem Part.same_trans {p : Part} {s t u : State} (h : p.same s t) (h' : p.same t u) : p.same s u := by
  cases p <;> simp_all [Part.same]

/-- Changes made one after the other: the parts of both may differ. -/
theorem KeepsAllBut.trans {ps qs : List Part} {s t u : State} (h : KeepsAllBut ps s t) (h' : KeepsAllBut qs t u) :
    KeepsAllBut (ps ++ qs) s u := by
  intro p hp
  simp only [List.mem_append, not_or] at hp
  exact Part.same_trans (h p hp.1) (h' p hp.2)

theorem KeepsAllBut.mono {ps qs : List Part} {s t : State} (h : KeepsAllBut ps s t) (hsub : ps ⊆ qs) : KeepsAllBut qs s t :=
  fun p hp => h p fun hmem => hp (hsub hmem)

/-- The start of a step that is not halted, with record `a`: the record is sampled and the keypad latched (R101, R103). -/
theorem latch_keeps (s : State) (a : StepIn) : KeepsAllBut [.keys, .environment] s (s.setInp a).latchKeys := by
  intro p hp
  cases p <;> simp_all [Part.same]

theorem clearAwait_keeps (s : State) : KeepsAllBut [.await] s s.clearAwait := by
  intro p hp
  cases p <;> simp_all [Part.same]

/-! ### FX0A with a key event, at once or from a suspended core (R183, R104) -/

theorem keyResolved_eq_finishReg (s : State) (r : Reg) (k : Key) : s.keyResolved r k = s.finishReg r (keyByte k) := rfl

/-- What the completion of an FX0A leaves: V[r] is the key code, PC and the timers go on, the rest is as it was. -/
theorem keyResolved_spec (s : State) (r : Reg) (k : Key) :
    (s.keyResolved r k).await = s.await ∧ ((s.keyResolved r k).reg r).toNat = k.val ∧ KeepsRegsBut [r] s (s.keyResolved r k) ∧
      (s.keyResolved r k).pc.toNat = (s.pc.toNat + 2) % 65536 ∧
      (s.keyResolved r k).dt.toNat = tickedValue s.inp.dtDue s.dt ∧
      (s.keyResolved r k).st.toNat = tickedValue s.inp.stDue s.st ∧
      KeepsAllBut [.regs, .pc, .dt, .st] s (s.keyResolved r k) := by
  refine ⟨rfl, ?_, fun q hq => ?_, toNat_nextPc s, toNat_tickTimer _ _, toNat_tickTimer _ _,
    (setReg_keeps s r _).trans (complete_keeps _ _)⟩
  · simp [State.keyResolved, toNat_keyByte]
  · simp_all [State.keyResolved]

theorem suspendedStep_of_none {r : Reg} {s : State} (h : s.inp.keyEvent = none) : suspendedStep r s = s := by
  simp [suspendedStep, h]

theorem suspendedStep_of_event {r : Reg} {s : State} {k : Key} (h : s.inp.keyEvent = some k) :
    suspendedStep r s = s.clearAwait.keyResolved r k := by
  simp [suspendedStep, h]

/-! ### KEYS before and after a step -/

theorem suspendedStep_keys (r : Reg) (s : State) : (suspendedStep r s).keys = s.keys := by
  cases h : s.inp.keyEvent with
  | none => rw [suspendedStep_of_none h]
  | some k => rw [suspendedStep_of_event h]; rfl

/-- No handler writes KEYS (R35). -/
theorem exec_keeps_keys (i : Instr) (s : State) : ∃ t, exec i s = .next t ∧ t.keys = s.keys := by
  obtain ⟨t, ht, hend⟩ := exec_ends i s
  refine ⟨t, ht, ?_⟩
  rcases hend with (⟨-, -, rfl⟩ | ⟨-, -, rfl⟩) | ⟨x, -, -, rfl⟩ | hdone
  · exact takeFault_keys ..
  · exact takeFault_keys ..
  · exact suspend_keys ..
  · exact hdone.keys

/-- The snapshot held before a step is overwritten before anything reads it. -/
theorem stepWith_setKeys {s : State} (a : StepIn) (h : s.halted = false) (k : BitVec 16) :
    stepWith a { s with keys := k } = stepWith a s := by
  rcases Option.eq_none_or_eq_some s.await with ha | ⟨r, ha⟩
  · exact (stepWith_running (s := { s with keys := k }) a h ha).trans (stepWith_running a h ha).symm
  · exact (stepWith_suspended (s := { s with keys := k }) a h ha).trans (stepWith_suspended a h ha).symm

/-! ### A halted core, and what ends it (R102, R261) -/

/-- Any number of steps of a halted core: only the records of inputs are consumed (R102). -/
theorem run_halted (k : Nat) {s : State} (h : s.halted = true) :
    ∃ t, core.run k s = .next t ∧ t = { s with inp := t.inp, inputs := t.inputs, draws := t.draws } := by
  induction k generalizing s with
  | zero => exact ⟨s, run_zero s, rfl⟩
  | succ k ih =>
    obtain ⟨t, hrun, ht⟩ := ih (s := s.sample) (by simpa using h)
    refine ⟨t, by rw [run_succ (step_halted h), hrun], ?_⟩
    rw [ht, sample_spec]

theorem load_not_halted (image : List Byte) (s : State) (f : Font) : (load image s f).1.halted = false := by
  unfold load
  split <;> rfl

/-! ### When a handler takes a fault (R220, R221, R223) -/

theorem spValue_eq_neg_one_iff (sp : Option (Fin 16)) : spValue sp = -1 ↔ sp = none :=
  ⟨fun h => spValue_inj h, fun h => h ▸ rfl⟩

/-- `i` is an instruction that faults on the stack `sp`: a CALL at SP = 15, or a RET at SP = EMPTY. -/
def StackFault (i : Instr) (sp : Option (Fin 16)) : Prop :=
  (∃ nnn, i = .call nnn ∧ spValue sp = 15) ∨ (∃ n, i = .ret n ∧ spValue sp = -1)

theorem FaultEnd.stackFault {i : Instr} {s t : State} (h : FaultEnd i s t) : StackFault i s.sp := by
  rcases h with ⟨⟨n, rfl⟩, hsp, -⟩ | ⟨⟨nnn, rfl⟩, hsp, -⟩
  · exact .inr ⟨n, rfl, (spValue_eq_neg_one_iff _).mpr hsp⟩
  · exact .inl ⟨nnn, rfl, (spPush_spec _).1.mp hsp⟩

theorem DoneEnd.not_stackFault {i : Instr} {s t : State} (h : DoneEnd i s t) : ¬ StackFault i s.sp := by
  rintro (⟨nnn, rfl, hsp⟩ | ⟨n, rfl, hsp⟩)
  · exact h.notCall nnn rfl ((spPush_spec _).1.mpr hsp)
  · exact h.notRet n rfl ((spValue_eq_neg_one_iff _).mp hsp)

theorem WaitEnd.not_stackFault {i : Instr} {s t : State} (h : WaitEnd i s t) : ¬ StackFault i s.sp := by
  obtain ⟨x, rfl, -, -⟩ := h
  simp [StackFault]

/-- The code of a fault, by the instruction that takes it (R220). -/
theorem FaultEnd.taken {i : Instr} {s t : State} (h : FaultEnd i s t) : ∃ f, t = s.takeFault f (encode i) ∧
    (∀ nnn, i = .call nnn → faultCode f = 0x01) ∧ (∀ n, i = .ret n → faultCode f = 0x02) := by
  rcases h with ⟨⟨n, rfl⟩, -, rfl⟩ | ⟨⟨nnn, rfl⟩, -, rfl⟩
  · exact ⟨.stackUnderflow, rfl, by simp, fun _ _ => rfl⟩
  · exact ⟨.stackOverflow, rfl, fun _ _ => rfl, by simp⟩

/-- A handler of a core that is not halted either takes a fault, on a `StackFault`, or leaves it running. -/
theorem exec_faults_or_runs (i : Instr) {s : State} (h : s.halted = false) : ∃ t, exec i s = .next t ∧
    (FaultEnd i s t ∧ t.halted = true ∧ StackFault i s.sp ∨ t.halted = false ∧ ¬ StackFault i s.sp) := by
  obtain ⟨t, ht, hend⟩ := exec_ends i s
  refine ⟨t, ht, ?_⟩
  rcases hend with hfault | hwait | hdone
  · obtain ⟨f, rfl, -⟩ := hfault.taken
    exact .inl ⟨hfault, rfl, hfault.stackFault⟩
  · refine .inr ⟨?_, hwait.not_stackFault⟩
    obtain ⟨x, -, -, rfl⟩ := hwait
    exact h
  · exact .inr ⟨hdone.halted.trans h, hdone.not_stackFault⟩

end Sys2Proof.Machine
end

section
/-! SUPPORT. The obligations of spec/40_pipeline.md: halted, suspended and faulting steps, the keypad latch, FX0A, SYS and the ignored
words. A step with record `a` starts in `(s.setInp a).latchKeys`, which is `s` with the record sampled and the keypad latched. -/

namespace Sys2Proof.Machine

/-- Settles O8, by induction on the number of steps (`run_halted`). -/
theorem haltedStepsChangeNothing : Obligations.HaltedStepsChangeNothing := by
  unfold Obligations.HaltedStepsChangeNothing
  exact fun s k image f h => ⟨run_halted k h, load_not_halted image s f⟩

/-- Settles O9: without an event the step is the latch alone, with one it is the completion of the FX0A on the latched state. -/
theorem suspendedStepWaitsForKey : Obligations.SuspendedStepWaitsForKey := by
  unfold Obligations.SuspendedStepWaitsForKey
  intro s a r h ha
  have hstep : stepWith a s = .next (suspendedStep r (s.setInp a).latchKeys) := stepWith_suspended a h ha
  refine ⟨fun hk => ?_, fun k hk => ?_⟩
  · rw [suspendedStep_of_none (by exact hk)] at hstep
    exact ⟨_, hstep, rfl, latch_keeps s a⟩
  · rw [suspendedStep_of_event (by exact hk)] at hstep
    obtain ⟨hawait, hreg, hregs, hpc, hdt, hst, hkeeps⟩ := keyResolved_spec (s.setInp a).latchKeys.clearAwait r k
    have hframe := ((latch_keeps s a).trans (clearAwait_keeps _)).trans hkeeps
    exact ⟨_, hstep, rfl, hawait, hreg, hregs, hpc, hdt, hst, hframe.mono (by decide)⟩

/-- Settles O10: both forms of a running step act on the latched state, and neither writes KEYS after it. -/
theorem runningStepLatchesKeys : Obligations.RunningStepLatchesKeys := by
  unfold Obligations.RunningStepLatchesKeys
  intro s a h
  refine ⟨fun ha => stepWith_running a h ha, fun r ha => stepWith_suspended a h ha,
    stepWith_setKeys a h, ?_⟩
  cases ha : s.await with
  | none => rw [stepWith_running a h ha]; exact exec_keeps_keys _ _
  | some r => exact ⟨_, stepWith_suspended a h ha, suspendedStep_keys _ _⟩

/-- Settles O17: the step is the decoded instruction on the latched state, which halts exactly in the end `FaultEnd`; the word it
records is the fetched one, as `encode` undoes `decode`. -/
theorem faultsAreExactlyStackFaults : Obligations.FaultsAreExactlyStackFaults := by
  unfold Obligations.FaultsAreExactlyStackFaults
  intro s a h ha
  obtain ⟨t, ht, hend⟩ := exec_faults_or_runs (decode (fetchWord s)) (s := (s.setInp a).latchKeys) h
  refine ⟨t, (stepWith_running a h ha).trans ht, ?_⟩
  rcases hend with ⟨hfault, hhalted, hcause⟩ | ⟨hruns, hnot⟩
  · refine ⟨iff_of_true hhalted hcause, fun _ => ?_⟩
    obtain ⟨f, rfl, hcall, hret⟩ := hfault.taken
    obtain ⟨-, -, hkeeps⟩ := takeFault_taken (s.setInp a).latchKeys f (encode (decode (fetchWord s)))
    exact ⟨hcall, hret, rfl, rfl, encode_decode _, rfl, ((latch_keeps s a).trans hkeeps).mono (by decide)⟩
  · exact ⟨iff_of_false (by simp [hruns]) hnot, by simp [hruns]⟩

/-- Settles O35: with an event FX0A is a register write (`finishReg_endsDone`), without one it leaves a waiting core, whose later steps
`suspendedStepWaitsForKey` describes. -/
theorem waitForKeyCompletesOrSuspends : Obligations.WaitForKeyCompletesOrSuspends := by
  unfold Obligations.WaitForKeyCompletesOrSuspends
  intro s x
  refine ⟨?_, fun k hk => ?_, fun hk => ?_⟩
  · rw [decode_of_familyF (fieldF_wordXNN _ _ _)]
    simp [decodeF]
  · have hexec : exec (.ldVxK x) s = .next (s.finishReg x (keyByte k)) := by
      simp [exec, execLdVxK, hk, keyResolved_eq_finishReg]
    obtain ⟨hends, hregs, hreg⟩ := finishReg_endsDone hexec
    exact ⟨_, hends, hregs, by rw [hreg, toNat_keyByte]⟩
  · have hexec : exec (.ldVxK x) s = .next (s.suspend x) := by simp [exec, execLdVxK, hk]
    refine ⟨_, hexec, rfl, suspend_keeps s x, fun h a => ?_⟩
    obtain ⟨hwaits, hcompletes⟩ := suspendedStepWaitsForKey (s.suspend x) a x h rfl
    refine ⟨fun hk' => ?_, fun k hk' => ?_⟩
    · obtain ⟨u, hu, -, hkeeps⟩ := hwaits hk'
      exact ⟨u, hu, hkeeps⟩
    · obtain ⟨u, hu, -, hawait, hreg, -, hpc, hdt, hst, -⟩ := hcompletes k hk'
      exact ⟨u, hu, hawait, hreg, hpc, hdt, hst⟩

/-- A handler that does nothing, then completes at PC + 2 (R110, R111). -/
theorem advance_endsDone {i : Instr} {s : State} (h : exec i s = .next (s.complete s.nextPc)) :
    ∃ t, EndsDone i s t (s.pc.toNat + 2) [] :=
  ⟨_, endsDone_of_complete h (toNat_nextPc s) (.refl [] s) rfl rfl rfl⟩

/-- Settles O42: each catch-all row by its own decoding lemma; the four handlers do nothing. -/
theorem sysAndIgnoredWordsOnlyAdvance : Obligations.SysAndIgnoredWordsOnlyAdvance := by
  unfold Obligations.SysAndIgnoredWordsOnlyAdvance
  intro s nnn x y n nn
  exact ⟨decode_sys, decode_ignored8 x y, decode_ignoredE x, decode_ignoredF x,
    advance_endsDone rfl, advance_endsDone rfl, advance_endsDone rfl, advance_endsDone rfl⟩

end Sys2Proof.Machine
end

section
/-! SUPPORT. The obligations of spec/41_control_flow.md: return, call, jump and the compare skips. First the decoding of their words, what a
push and a pop leave of a state, and handlers that only choose PC; then the obligations. -/

namespace Sys2Proof

/-! ### Decoding (spec/30_encoding.md R74, R75, R79) -/

theorem decode_ret (n : Nibble) : decode (wordXNN 0x0#4 n 0xEE#8) = .ret n := by
  rw [decode_of_family0 (fieldF_wordXNN _ _ _)]
  simp [decode0]

theorem decode_jp (nnn : Addr12) : decode (wordNNN 0x1#4 nnn) = .jp nnn := by simp [decode]

theorem decode_call (nnn : Addr12) : decode (wordNNN 0x2#4 nnn) = .call nnn := by simp [decode]

theorem decode_seImm (x : Reg) (nn : Byte) : decode (wordXNN 0x3#4 (regBits x) nn) = .seImm x nn := by simp [decode]

theorem decode_sneImm (x : Reg) (nn : Byte) : decode (wordXNN 0x4#4 (regBits x) nn) = .sneImm x nn := by simp [decode]

theorem decode_seReg (x y : Reg) (n : Nibble) : decode (wordXYN 0x5#4 (regBits x) (regBits y) n) = .seReg x y n := by
  simp [decode]

theorem decode_sneReg (x y : Reg) (n : Nibble) : decode (wordXYN 0x9#4 (regBits x) (regBits y) n) = .sneReg x y n := by
  simp [decode]

end Sys2Proof

namespace Sys2Proof.Machine

/-! ### Frames of the stack operations (spec/10_state.md R30, R31) -/

theorem push_keeps (s : State) (k : Fin 16) (a : Addr) : KeepsAllBut [.stack] s (s.push k a) := by
  intro q hq
  cases q <;> simp_all [Part.same]

theorem pop_keeps (s : State) (k : Fin 16) : KeepsAllBut [.stack] s (s.pop k) := by
  intro q hq
  cases q <;> simp_all [Part.same]

/-! ### RET and CALL by the stack pointer they find (R120, R122) -/

theorem exec_ret_empty (n : Nibble) {s : State} (h : s.sp = none) :
    exec (.ret n) s = .next (s.takeFault .stackUnderflow (encode (.ret n))) := by simp [exec, execRet, h]

theorem exec_ret_entry (n : Nibble) {s : State} {k : Fin 16} (h : s.sp = some k) :
    exec (.ret n) s = .next ((s.pop k).complete (s.entry k)) := by simp [exec, execRet, h]

theorem exec_call_full (nnn : Addr12) {s : State} (h : spPush s.sp = none) :
    exec (.call nnn) s = .next (s.takeFault .stackOverflow (encode (.call nnn))) := by simp [exec, execCall, h]

theorem exec_call_push (nnn : Addr12) {s : State} {k : Fin 16} (h : spPush s.sp = some k) :
    exec (.call nnn) s = .next ((s.push k s.nextPc).complete (zext16 nnn)) := by simp [exec, execCall, h]

/-- A stack that is not full has an entry above SP, to which a push goes (R31). -/
theorem exists_spPush {sp : Option (Fin 16)} (h : spValue sp ≠ 15) :
    ∃ k, spPush sp = some k ∧ (k.val : Int) = spValue sp + 1 := by
  obtain ⟨hfull, hentry⟩ := spPush_spec sp
  obtain ⟨k, hk⟩ := Option.ne_none_iff_exists'.mp (mt hfull.mp h)
  exact ⟨k, hk, (hentry k).mp hk⟩

/-! ### Handlers that change nothing but PC (R107, R128) -/

theorem toNat_zext16 (nnn : Addr12) : (zext16 nnn).toNat = nnn.toNat % 65536 := BitVec.toNat_setWidth 16 nnn

theorem goto_endsDone {i : Instr} {s : State} {p : Addr} {pc : Nat} (h : exec i s = .next (s.complete p))
    (hp : p.toNat = pc % 65536) : ∃ t, EndsDone i s t pc [] :=
  ⟨_, endsDone_of_complete h hp (.refl [] s) rfl rfl rfl⟩

theorem skipIfEq_endsDone {i : Instr} {s : State} {a b : Byte} (h : exec i s = .next (s.complete (s.skipPc (a == b)))) :
    ∃ t, EndsDone i s t (s.pc.toNat + (if a = b then 4 else 2)) [] :=
  goto_endsDone h (by simp only [toNat_skipPc, beq_iff_eq])

theorem skipIfNe_endsDone {i : Instr} {s : State} {a b : Byte} (h : exec i s = .next (s.complete (s.skipPc (a != b)))) :
    ∃ t, EndsDone i s t (s.pc.toNat + (if a = b then 2 else 4)) [] :=
  goto_endsDone h (by simp only [toNat_skipPc, bne_iff_ne, ne_eq, ite_not])

/-! ### The obligations -/

/-- Settles O18, by the stack pointer RET finds: none is the fault, `k` pops entry `k` and completes there. -/
theorem retPopsReturnAddress : Obligations.RetPopsReturnAddress := by
  unfold Obligations.RetPopsReturnAddress
  intro s n
  refine ⟨decode_ret n, fun h => ?_, fun k h => ?_⟩
  · exact ⟨_, exec_ret_empty n h, takeFault_taken s .stackUnderflow _⟩
  · have hpc : (s.entry k).toNat = (s.entry k).toNat % 65536 := (Nat.mod_eq_of_lt (s.entry k).isLt).symm
    exact ⟨_, endsDone_of_complete (exec_ret_entry n h) hpc (pop_keeps s k) rfl rfl rfl, spValue_spPop k, fun j => rfl⟩

/-- Settles O19: a full stack is the fault, else there is an entry `k` above SP (`exists_spPush`), and `entry_push` says what the push
leaves in it and in every other. -/
theorem callPushesReturnAddress : Obligations.CallPushesReturnAddress := by
  unfold Obligations.CallPushesReturnAddress
  intro s nnn
  refine ⟨decode_call nnn, fun h => ?_, fun h => ?_⟩
  · exact ⟨_, exec_call_full nnn ((spPush_spec _).1.mpr h), takeFault_taken s .stackOverflow _⟩
  · obtain ⟨k, hk, hval⟩ := exists_spPush h
    refine ⟨_, endsDone_of_complete (exec_call_push nnn hk) (toNat_zext16 nnn) (push_keeps s k _) rfl rfl rfl, hval,
      fun j hj => ?_, fun j hj => ?_⟩
    · obtain rfl : j = k := by omega
      simp [toNat_nextPc]
    · have hjk : j ≠ k := by omega
      simp [hjk]

/-- Settles O21: the handler only sets PC, to NNN zero-extended. -/
theorem jumpGoesToTarget : Obligations.JumpGoesToTarget := by
  unfold Obligations.JumpGoesToTarget
  exact fun s nnn => ⟨decode_jp nnn, goto_endsDone rfl (toNat_zext16 nnn)⟩

/-- Settles O23: the four handlers only choose PC, by one comparison of two bytes. -/
theorem compareSkipsAdvance : Obligations.CompareSkipsAdvance := by
  unfold Obligations.CompareSkipsAdvance
  intro s x y nn n
  exact ⟨decode_seImm x nn, decode_sneImm x nn, decode_seReg x y n, decode_sneReg x y n,
    skipIfEq_endsDone rfl, skipIfNe_endsDone rfl, skipIfEq_endsDone rfl, skipIfNe_endsDone rfl⟩

end Sys2Proof.Machine
end

section
/-! SUPPORT. The obligations of spec/42_alu.md: loads, bitwise operations, sums, differences, shifts and the random byte. First the decoding
of their words and the numbers the results and flags are; then the two ends of these handlers, a register write without and with a flag. -/

namespace Sys2Proof

/-! ### Decoding (spec/30_encoding.md R74, R76) -/

theorem decode_ldImm (x : Reg) (nn : Byte) : decode (wordXNN 0x6#4 (regBits x) nn) = .ldImm x nn := by simp [decode]

theorem decode_addImm (x : Reg) (nn : Byte) : decode (wordXNN 0x7#4 (regBits x) nn) = .addImm x nn := by simp [decode]

theorem decode_rnd (x : Reg) (nn : Byte) : decode (wordXNN 0xC#4 (regBits x) nn) = .rnd x nn := by simp [decode]

/-- Family 0x8 with its fields in place: what is left is the choice by the low nibble. -/
theorem decode_wordXYN_family8 (x y n : Nibble) :
    decode (wordXYN 0x8#4 x y n) = decode8 (wordXYN 0x8#4 x y n) := decode_of_family8 (fieldF_wordXYN _ _ _ _)

theorem decode_ldReg (x y : Reg) : decode (wordXYN 0x8#4 (regBits x) (regBits y) 0x0#4) = .ldReg x y := by
  simp [decode_wordXYN_family8, decode8]

theorem decode_orReg (x y : Reg) : decode (wordXYN 0x8#4 (regBits x) (regBits y) 0x1#4) = .orReg x y := by
  simp [decode_wordXYN_family8, decode8]

theorem decode_andReg (x y : Reg) : decode (wordXYN 0x8#4 (regBits x) (regBits y) 0x2#4) = .andReg x y := by
  simp [decode_wordXYN_family8, decode8]

theorem decode_xorReg (x y : Reg) : decode (wordXYN 0x8#4 (regBits x) (regBits y) 0x3#4) = .xorReg x y := by
  simp [decode_wordXYN_family8, decode8]

theorem decode_addReg (x y : Reg) : decode (wordXYN 0x8#4 (regBits x) (regBits y) 0x4#4) = .addReg x y := by
  simp [decode_wordXYN_family8, decode8]

theorem decode_subReg (x y : Reg) : decode (wordXYN 0x8#4 (regBits x) (regBits y) 0x5#4) = .subReg x y := by
  simp [decode_wordXYN_family8, decode8]

theorem decode_subnReg (x y : Reg) : decode (wordXYN 0x8#4 (regBits x) (regBits y) 0x7#4) = .subnReg x y := by
  simp [decode_wordXYN_family8, decode8]

theorem decode_shr (x : Reg) (y : Nibble) : decode (wordXYN 0x8#4 (regBits x) y 0x6#4) = .shr x y := by
  simp [decode_wordXYN_family8, decode8]

theorem decode_shl (x : Reg) (y : Nibble) : decode (wordXYN 0x8#4 (regBits x) y 0xE#4) = .shl x y := by
  simp [decode_wordXYN_family8, decode8]

end Sys2Proof

namespace Sys2Proof.Machine

/-! ### Results and flags as numbers (R148 to R152) -/

theorem toNat_byte_sub (a b : Byte) : (a - b).toNat = (a.toNat + 256 - b.toNat) % 256 := by
  have hb := b.isLt
  rw [BitVec.toNat_sub]
  congr 1
  omega

theorem toNat_byte_shiftRight_one (a : Byte) : (a >>> 1).toNat = a.toNat / 2 := by
  simp [Nat.shiftRight_eq_div_pow]

theorem toNat_byte_shiftLeft_one (a : Byte) : (a <<< 1).toNat = 2 * a.toNat % 256 := by
  simp [Nat.shiftLeft_eq, Nat.mul_comm]

theorem toNat_flagByte_carryFlag (a b : Byte) :
    (flagByte (carryFlag a b)).toNat = if a.toNat + b.toNat > 255 then 1 else 0 := by
  simp only [toNat_flagByte, carryFlag, decide_eq_true_eq]

theorem toNat_flagByte_noBorrowFlag (a b : Byte) :
    (flagByte (noBorrowFlag a b)).toNat = if a.toNat ≥ b.toNat then 1 else 0 := by
  simp only [toNat_flagByte, noBorrowFlag, decide_eq_true_eq]

/-- Bit 0 of a byte is its remainder by 2. -/
theorem toNat_flagByte_shiftedOutRight (a : Byte) : (flagByte (shiftedOutRight a)).toNat = a.toNat % 2 := by
  have hbit : shiftedOutRight a = decide (a.toNat % 2 = 1) := Nat.testBit_zero _
  rw [toNat_flagByte, hbit]
  simp only [decide_eq_true_eq]
  split <;> omega

/-- Bit 7 of a byte is its quotient by 128. -/
theorem toNat_flagByte_shiftedOutLeft (a : Byte) : (flagByte (shiftedOutLeft a)).toNat = a.toNat / 128 := by
  have hlt := a.isLt
  have hbit : shiftedOutLeft a = decide (a.toNat / 128 % 2 = 1) := Nat.testBit_eq_decide_div_mod_eq
  rw [toNat_flagByte, hbit]
  simp only [decide_eq_true_eq]
  split <;> omega

/-! ### The two ends of the handlers (R140, R141) -/

/-- A handler that writes V[X], by the bits of what it writes. -/
theorem finishReg_bits {i : Instr} {s : State} {x : Reg} {b : Byte} {bit : Nat → Bool}
    (h : exec i s = .next (s.finishReg x b)) (hbit : ∀ j, b.getLsbD j = bit j) :
    ∃ t, EndsDone i s t (s.pc.toNat + 2) [.regs] ∧ KeepsRegsBut [x] s t ∧ ∀ j, (t.reg x).getLsbD j = bit j := by
  obtain ⟨hends, hregs, hreg⟩ := finishReg_endsDone h
  exact ⟨_, hends, hregs, by rwa [hreg]⟩

/-- A handler that writes V[X], then a flag to VF, by the numbers these two are. -/
theorem finishRegFlag_values {i : Instr} {s : State} {x : Reg} {b : Byte} {f : Bool} {result flag : Nat}
    (h : exec i s = .next (s.finishRegFlag x b f)) (hb : b.toNat = result) (hf : (flagByte f).toNat = flag) :
    ∃ t, EndsDone i s t (s.pc.toNat + 2) [.regs] ∧ KeepsRegsBut [x, 0xF] s t ∧
      (x ≠ 0xF → (t.reg x).toNat = result) ∧ (t.reg 0xF).toNat = flag := by
  obtain ⟨hends, hregs, hreg, hflag⟩ := finishRegFlag_endsDone h
  exact ⟨_, hends, hregs, fun hx => by rw [hreg hx, hb], by rw [hflag, ← toNat_flagByte, hf]⟩

/-! ### The obligations -/

/-- Settles O24: each handler is one register write (`finishReg_endsDone`). -/
theorem loadsAndAddImmediate : Obligations.LoadsAndAddImmediate := by
  unfold Obligations.LoadsAndAddImmediate
  intro s x y nn
  obtain ⟨hends, hregs, hreg⟩ := finishReg_endsDone (i := .addImm x nn) (s := s) rfl
  exact ⟨decode_ldImm x nn, decode_addImm x nn, decode_ldReg x y, ⟨_, finishReg_endsDone rfl⟩,
    ⟨_, hends, hregs, by rw [hreg, BitVec.toNat_add]⟩, ⟨_, finishReg_endsDone rfl⟩⟩

/-- Settles O25: each handler is one register write, of a byte given bit by bit. -/
theorem bitwiseOperations : Obligations.BitwiseOperations := by
  unfold Obligations.BitwiseOperations
  intro s x y
  exact ⟨decode_orReg x y, decode_andReg x y, decode_xorReg x y, finishReg_bits rfl fun _ => BitVec.getLsbD_or,
    finishReg_bits rfl fun _ => BitVec.getLsbD_and, finishReg_bits rfl fun _ => BitVec.getLsbD_xor⟩

/-- Settles O26: the sum modulo 256, then the carry, written last (`finishRegFlag_values`). -/
theorem addSetsCarryLast : Obligations.AddSetsCarryLast := by
  unfold Obligations.AddSetsCarryLast
  exact fun s x y => ⟨decode_addReg x y, finishRegFlag_values rfl (BitVec.toNat_add _ _) (toNat_flagByte_carryFlag _ _)⟩

/-- Settles O27: the difference modulo 256, then no-borrow, written last; the two handlers differ in which operand is the minuend. -/
theorem subtractionsSetNoBorrowLast : Obligations.SubtractionsSetNoBorrowLast := by
  unfold Obligations.SubtractionsSetNoBorrowLast
  intro s x y
  exact ⟨decode_subReg x y, decode_subnReg x y,
    finishRegFlag_values rfl (toNat_byte_sub _ _) (toNat_flagByte_noBorrowFlag _ _),
    finishRegFlag_values rfl (toNat_byte_sub _ _) (toNat_flagByte_noBorrowFlag _ _)⟩

/-- Settles O28: the shifted byte, then the bit shifted out of the original value, written last. -/
theorem shiftsSetShiftedOutBitLast : Obligations.ShiftsSetShiftedOutBitLast := by
  unfold Obligations.ShiftsSetShiftedOutBitLast
  intro s x y
  exact ⟨decode_shr x y, decode_shl x y,
    finishRegFlag_values rfl (toNat_byte_shiftRight_one _) (toNat_flagByte_shiftedOutRight _),
    finishRegFlag_values rfl (toNat_byte_shiftLeft_one _) (toNat_flagByte_shiftedOutLeft _)⟩

/-- Settles O29: the handler is one register write, of the sampled byte masked bit by bit. -/
theorem randomByteIsMasked : Obligations.RandomByteIsMasked := by
  unfold Obligations.RandomByteIsMasked
  exact fun s x nn => ⟨decode_rnd x nn, finishReg_bits rfl fun _ => BitVec.getLsbD_and⟩

end Sys2Proof.Machine
end

section
/-! SUPPORT. The obligations of spec/43_display.md: clear screen and draw. First the decoding of their words and what a write of the screen
leaves; then `State.drawn` in the terms of Safety.lean and the end of DXYN; then the obligations. -/

namespace Sys2Proof

/-! ### Decoding (spec/30_encoding.md R74, R75) -/

theorem decode_cls (n : Nibble) : decode (wordXNN 0x0#4 n 0xE0#8) = .cls n := by
  rw [decode_of_family0 (fieldF_wordXNN _ _ _)]
  simp [decode0]

theorem decode_drw (x y : Reg) (n : Fin 16) :
    decode (wordXYN 0xD#4 (regBits x) (regBits y) (regBits n)) = .drw x y n := by
  simp [decode]

end Sys2Proof

namespace Sys2Proof.Machine

/-! ### The screen -/

theorem setFb_keeps (s : State) (fb : Framebuffer) : KeepsAllBut [.screen] s (s.setFb fb) := by
  intro q hq
  cases q <;> simp_all [Part.same]

theorem pixel_zero (px py : Nat) : Framebuffer.pixel 0 px py = false := BitVec.getLsbD_zero

/-! ### The sprite of DXYN (R171, R174, R175) -/

/-- Wrapping keeps the sprite on the grid (R174). -/
theorem SpriteCovers.on_grid {s : State} {x y : Reg} {n px py : Nat} (h : SpriteCovers s x y n px py) : px < 64 ∧ py < 32 := by
  obtain ⟨r, c, -, -, rfl, rfl, -⟩ := h
  exact ⟨Nat.mod_lt _ (by decide), Nat.mod_lt _ (by decide)⟩

/-- The screen after the draw is the XOR of the screen and the sprite. -/
theorem drawn_pixel (s : State) (x y : Reg) (n : Fin 16) {px : Nat} (py : Nat) (hpx : px < 64) :
    (s.drawn x y n.val).fb.pixel px py = true ↔ ¬ (s.fb.pixel px py = true ↔ SpriteCovers s x y n.val px py) := by
  obtain ⟨hpixel, -⟩ := drawSprite_spec ⟨s.fb, false⟩ s.mem s.i.toNat (s.reg x).toNat (s.reg y).toNat (n := n.val) (by omega)
  rw [State.drawn, hpixel px py hpx, spriteBit_iff_covers]
  tauto

/-- The draw hits exactly when a set pixel lies under the sprite. -/
theorem drawn_hit (s : State) (x y : Reg) (n : Fin 16) :
    (s.drawn x y n.val).hit = true ↔
      ∃ px py, px < 64 ∧ py < 32 ∧ s.fb.pixel px py = true ∧ SpriteCovers s x y n.val px py := by
  obtain ⟨-, hhit⟩ := drawSprite_spec ⟨s.fb, false⟩ s.mem s.i.toNat (s.reg x).toNat (s.reg y).toNat (n := n.val) (by omega)
  simp only [State.drawn, hhit, spriteBit_iff_covers, Bool.false_eq_true, false_or]
  constructor
  · rintro ⟨px, py, hpx, hset, hcov⟩
    exact ⟨px, py, hpx, hcov.on_grid.2, hset, hcov⟩
  · rintro ⟨px, py, hpx, -, hset, hcov⟩
    exact ⟨px, py, hpx, hset, hcov⟩

/-! ### The end of DXYN (R171, R173, R177) -/

/-- DXYN changes no register but VF, which is the collision as 1 or 0, and leaves the screen `State.drawn` says. -/
theorem drw_endsDone (s : State) (x y : Reg) (n : Fin 16) :
    ∃ t, EndsDone (.drw x y n) s t (s.pc.toNat + 2) [.regs, .screen] ∧ KeepsRegsBut [0xF] s t ∧
      t.fb = (s.drawn x y n.val).fb ∧ (t.reg 0xF).toNat = if (s.drawn x y n.val).hit = true then 1 else 0 := by
  have hkeeps := (setFb_keeps s (s.drawn x y n.val).fb).trans (setReg_keeps _ flagReg (flagByte (s.drawn x y n.val).hit))
  refine ⟨_, endsDone_of_complete rfl (toNat_nextPc s) (hkeeps.mono (by simp)) rfl rfl rfl, fun r hr => ?_, rfl, ?_⟩
  · simp_all [flagReg]
  · simp [flagReg, toNat_flagByte]

/-- With no rows nothing is drawn and nothing hit: DXY0 is the write of 0 to VF (R173). -/
theorem exec_drw_noRows (x y : Reg) (s : State) : exec (.drw x y 0) s = .next (s.finishReg flagReg 0) := rfl

/-! ### The obligations -/

/-- Settles O30: the handler only writes the screen, with no bit set. -/
theorem clearScreenUnsetsEveryPixel : Obligations.ClearScreenUnsetsEveryPixel := by
  unfold Obligations.ClearScreenUnsetsEveryPixel
  exact fun s n => ⟨decode_cls n, _, endsDone_of_complete rfl (toNat_nextPc s) (setFb_keeps s 0) rfl rfl rfl,
    fun px py _ _ => pixel_zero px py⟩

/-- Settles O31: the screen by `drawn_pixel`, VF by `drawn_hit`. -/
theorem drawXorsSpriteAndSetsCollision : Obligations.DrawXorsSpriteAndSetsCollision := by
  unfold Obligations.DrawXorsSpriteAndSetsCollision
  intro s x y n
  obtain ⟨t, hends, hregs, hfb, hvf⟩ := drw_endsDone s x y n
  refine ⟨decode_drw x y n, t, hends, hregs, fun px py hpx _ => ?_, ?_, ?_⟩
  · rw [hfb, drawn_pixel s x y n py hpx]
  · rw [hvf]
    split <;> simp
  · rw [hvf, ← drawn_hit]
    simp

/-- Settles O32: DXY0 is one register write (`exec_drw_noRows`), which memory takes no part in. -/
theorem drawOfNoRowsOnlyClearsVF : Obligations.DrawOfNoRowsOnlyClearsVF := by
  unfold Obligations.DrawOfNoRowsOnlyClearsVF
  intro s x y
  obtain ⟨hends, hregs, hvf⟩ := finishReg_endsDone (exec_drw_noRows x y s)
  exact ⟨_, hends, hregs, hvf, fun m => exec_drw_noRows x y (s.setMem m)⟩

end Sys2Proof.Machine
end

section
/-! SUPPORT. The obligation of spec/44_keypad.md on SKP and SKNP: the decoding of their words, the key lookup, then the obligation. -/

namespace Sys2Proof

/-! ### Decoding (spec/30_encoding.md R77) -/

theorem decode_skp (x : Reg) : decode (wordXNN 0xE#4 (regBits x) 0x9E#8) = .skp x := by
  rw [decode_of_familyE (fieldF_wordXNN _ _ _)]
  simp [decodeE]

theorem decode_sknp (x : Reg) : decode (wordXNN 0xE#4 (regBits x) 0xA1#8) = .sknp x := by
  rw [decode_of_familyE (fieldF_wordXNN _ _ _)]
  simp [decodeE]

end Sys2Proof

namespace Sys2Proof.Machine

/-- The two cases of the key lookup are all there are (R180). -/
theorem pressed_eq_of_cases {s : State} {code : Byte} {p : Bool} (hpad : code.toNat ≤ 15 → p = s.keys.getLsbD code.toNat)
    (hoor : code.toNat ≥ 16 → p = s.inp.oorPressed) : s.pressed code = p := by
  unfold State.pressed
  split
  next hle => exact (hpad hle).symm
  next hgt => exact (hoor (Nat.lt_of_not_le hgt)).symm

/-- Settles O34: both handlers only choose PC (`goto_endsDone`), by the key lookup, which SKNP negates. -/
theorem keySkipsTestSnapshot : Obligations.KeySkipsTestSnapshot := by
  unfold Obligations.KeySkipsTestSnapshot
  intro s x p hpad hoor
  obtain rfl : s.pressed (s.reg x) = p := pressed_eq_of_cases hpad hoor
  refine ⟨decode_skp x, decode_sknp x, goto_endsDone rfl (toNat_skipPc s _), goto_endsDone rfl ?_⟩
  rw [toNat_skipPc]
  cases s.pressed (s.reg x) <;> rfl

end Sys2Proof.Machine
end

section
/-! SUPPORT. The obligation of spec/45_timers.md: FX07, FX15 and FX18. First the decoding of their words and what a write of a timer leaves;
then how a handler that writes timers ends; then the obligation. -/

namespace Sys2Proof

/-! ### Decoding (spec/30_encoding.md R78) -/

/-- Family 0xF with its fields in place: what is left is the choice by the low byte. -/
theorem decode_wordXNN_familyF (x : Nibble) (nn : Byte) :
    decode (wordXNN 0xF#4 x nn) = decodeF (wordXNN 0xF#4 x nn) := decode_of_familyF (fieldF_wordXNN _ _ _)

theorem decode_ldVxDt (x : Reg) : decode (wordXNN 0xF#4 (regBits x) 0x07#8) = .ldVxDt x := by
  simp [decode_wordXNN_familyF, decodeF]

theorem decode_ldDtVx (x : Reg) : decode (wordXNN 0xF#4 (regBits x) 0x15#8) = .ldDtVx x := by
  simp [decode_wordXNN_familyF, decodeF]

theorem decode_ldStVx (x : Reg) : decode (wordXNN 0xF#4 (regBits x) 0x18#8) = .ldStVx x := by
  simp [decode_wordXNN_familyF, decodeF]

end Sys2Proof

namespace Sys2Proof.Machine

/-! ### Writes of a timer -/

theorem setDt_keeps (s : State) (b : Byte) : KeepsAllBut [.dt] s (s.setDt b) := by
  intro q hq
  cases q <;> simp_all [Part.same]

theorem setSt_keeps (s : State) (b : Byte) : KeepsAllBut [.st] s (s.setSt b) := by
  intro q hq
  cases q <;> simp_all [Part.same]

/-- A handler that changes only timers, then completes at PC + 2: the tick acts on the timers as the handler left them (R193). -/
theorem timersWritten_complete {i : Instr} {s u : State} (h : exec i s = .next (u.complete s.nextPc))
    (hk : KeepsAllBut [.dt, .st] s u) :
    ∃ t, exec i s = .next t ∧ t.pc.toNat = (s.pc.toNat + 2) % 65536 ∧ t.dt.toNat = tickedValue s.inp.dtDue u.dt ∧
      t.st.toNat = tickedValue s.inp.stDue u.st ∧ KeepsAllBut [.pc, .dt, .st] s t := by
  obtain ⟨hinp, -, -⟩ : Part.environment.same s u := hk .environment (by decide)
  refine ⟨_, h, toNat_nextPc s, ?_, ?_, (hk.trans (complete_keeps u s.nextPc)).mono (by decide)⟩
  · rw [complete_dt, toNat_tickTimer, hinp]
  · rw [complete_st, toNat_tickTimer, hinp]

/-! ### The obligation -/

/-- Settles O36: FX07 is one register write, of DT before the tick (`finishReg_endsDone`); FX15 and FX18 write one timer each, which the
tick then finds (`timersWritten_complete`). -/
theorem timerInstructions : Obligations.TimerInstructions := by
  unfold Obligations.TimerInstructions
  intro s x
  exact ⟨decode_ldVxDt x, decode_ldDtVx x, decode_ldStVx x, ⟨_, finishReg_endsDone rfl⟩,
    timersWritten_complete rfl ((setDt_keeps s (s.reg x)).mono (by decide)),
    timersWritten_complete rfl ((setSt_keeps s (s.reg x)).mono (by decide))⟩

end Sys2Proof.Machine
end

section
/-! SUPPORT. The obligations of spec/46_index_memory.md: ANNN, FX1E, FX29, FX33, FX55 and FX65. First the decoding of their words; then, for
I, for memory and for the registers, what is written as numbers and how a handler that writes only that ends; then the obligations. -/

namespace Sys2Proof

/-! ### Decoding (spec/30_encoding.md R74, R78) -/

theorem decode_ldI (nnn : Addr12) : decode (wordNNN 0xA#4 nnn) = .ldI nnn := by simp [decode]

theorem decode_addI (x : Reg) : decode (wordXNN 0xF#4 (regBits x) 0x1E#8) = .addI x := by
  simp [decode_wordXNN_familyF, decodeF]

theorem decode_ldF (x : Reg) : decode (wordXNN 0xF#4 (regBits x) 0x29#8) = .ldF x := by
  simp [decode_wordXNN_familyF, decodeF]

theorem decode_ldB (x : Reg) : decode (wordXNN 0xF#4 (regBits x) 0x33#8) = .ldB x := by
  simp [decode_wordXNN_familyF, decodeF]

theorem decode_ldMemVx (x : Reg) : decode (wordXNN 0xF#4 (regBits x) 0x55#8) = .ldMemVx x := by
  simp [decode_wordXNN_familyF, decodeF]

theorem decode_ldVxMem (x : Reg) : decode (wordXNN 0xF#4 (regBits x) 0x65#8) = .ldVxMem x := by
  simp [decode_wordXNN_familyF, decodeF]

end Sys2Proof

namespace Sys2Proof.Machine

/-! ### Writes of I (R200 to R202) -/

theorem setI_keeps (s : State) (a : Addr) : KeepsAllBut [.index] s (s.setI a) := by
  intro q hq
  cases q <;> simp_all [Part.same]

/-- A handler that writes I and goes on at PC + 2, by the number it writes. -/
theorem indexWritten_endsDone {i : Instr} {s : State} {a : Addr} {value : Nat}
    (h : exec i s = .next ((s.setI a).complete s.nextPc)) (ha : a.toNat = value) :
    ∃ t, EndsDone i s t (s.pc.toNat + 2) [.index] ∧ t.i.toNat = value :=
  ⟨_, endsDone_of_complete h (toNat_nextPc s) (setI_keeps s a) rfl rfl rfl, ha⟩

/-- NNN has 12 bits, so it is the same number as an address. -/
theorem toNat_zext16_eq (nnn : Addr12) : (zext16 nnn).toNat = nnn.toNat :=
  BitVec.toNat_setWidth_of_le (by decide)

theorem toNat_byteTo16 (b : Byte) : (byteTo16 b).toNat = b.toNat :=
  BitVec.toNat_setWidth_of_le (by decide)

/-- The glyph address of the largest byte, 5 × 255, is still an address. -/
theorem toNat_glyphAddr (digit : Byte) : (glyphAddr digit).toNat = 5 * digit.toNat :=
  Nat.mod_eq_of_lt (by omega)

/-! ### Writes of memory (R203, R204) -/

theorem setMem_keeps (s : State) (m : Memory) : KeepsAllBut [.memory] s (s.setMem m) := by
  intro q hq
  cases q <;> simp_all [Part.same]

/-- A handler that writes memory and goes on at PC + 2. -/
theorem memoryWritten_endsDone {i : Instr} {s : State} {m : Memory}
    (h : exec i s = .next ((s.setMem m).complete s.nextPc)) :
    EndsDone i s ((s.setMem m).complete s.nextPc) (s.pc.toNat + 2) [.memory] :=
  endsDone_of_complete h (toNat_nextPc s) (setMem_keeps s m) rfl rfl rfl

theorem toNat_bcdHundreds (v : Byte) : (bcdHundreds v).toNat = v.toNat / 100 :=
  Nat.mod_eq_of_lt (by omega)

theorem toNat_bcdTens (v : Byte) : (bcdTens v).toNat = v.toNat / 10 % 10 :=
  Nat.mod_eq_of_lt (by omega)

theorem toNat_bcdOnes (v : Byte) : (bcdOnes v).toNat = v.toNat % 10 :=
  Nat.mod_eq_of_lt (by omega)

/-- The memory FX33 leaves: the last of its three writes to an address is the one read there. -/
theorem read_bcdMem {s : State} (h : s.mem.wf = true) (x : Reg) (c : Nat) :
    (s.bcdMem x).read c =
      if c % 4096 = (s.i.toNat + 2) % 4096 then bcdOnes (s.reg x)
      else if c % 4096 = (s.i.toNat + 1) % 4096 then bcdTens (s.reg x)
      else if c % 4096 = s.i.toNat % 4096 then bcdHundreds (s.reg x)
      else s.mem.read c := by
  have hone := Memory.wf_write h s.i.toNat (bcdHundreds (s.reg x))
  have htwo := Memory.wf_write hone (s.i.toNat + 1) (bcdTens (s.reg x))
  rw [State.bcdMem, Memory.read_write htwo, Memory.read_write hone, Memory.read_write h]

/-- The three digits lie at three different effective addresses, so none overwrites another. -/
theorem read_bcdMem_digits {s : State} (h : s.mem.wf = true) (x : Reg) :
    (s.bcdMem x).read s.i.toNat = bcdHundreds (s.reg x) ∧ (s.bcdMem x).read (s.i.toNat + 1) = bcdTens (s.reg x) ∧
      (s.bcdMem x).read (s.i.toNat + 2) = bcdOnes (s.reg x) := by
  refine ⟨?_, ?_, ?_⟩ <;> rw [read_bcdMem h]
  · rw [if_neg (by omega), if_neg (by omega), if_pos rfl]
  · rw [if_neg (by omega), if_pos rfl]
  · rw [if_pos rfl]

theorem read_bcdMem_other {s : State} (h : s.mem.wf = true) (x : Reg) {c : Nat}
    (hc : ∀ k, k < 3 → c % 4096 ≠ (s.i.toNat + k) % 4096) : (s.bcdMem x).read c = s.mem.read c := by
  rw [read_bcdMem h, if_neg (hc 2 (by decide)), if_neg (hc 1 (by decide))]
  exact if_neg (hc 0 (by decide))

/-! ### The end of FX65 (R205) -/

/-- FX65 changes no part but the registers, which are those `loadRegs` leaves. -/
theorem ldVxMem_endsDone (s : State) (x : Reg) :
    EndsDone (.ldVxMem x) s ((loadRegs s s.i.toNat (x.val + 1)).complete s.nextPc) (s.pc.toNat + 2) [.regs] := by
  have hkeeps := loadRegs_keeps s s.i.toNat (x.val + 1)
  obtain ⟨hinp, -, -⟩ : Part.environment.same s _ := hkeeps .environment (by decide)
  exact endsDone_of_complete rfl (toNat_nextPc s) hkeeps (hkeeps .dt (by decide)) (hkeeps .st (by decide)) hinp

/-! ### The obligations -/

/-- Settles O37: each handler is one write of I (`indexWritten_endsDone`). -/
theorem indexInstructions : Obligations.IndexInstructions := by
  unfold Obligations.IndexInstructions
  intro s x nnn
  have hsum : (s.i + byteTo16 (s.reg x)).toNat = (s.i.toNat + (s.reg x).toNat) % 65536 := by
    rw [BitVec.toNat_add, toNat_byteTo16]
  exact ⟨decode_ldI nnn, decode_addI x, decode_ldF x, indexWritten_endsDone rfl (toNat_zext16_eq nnn),
    indexWritten_endsDone rfl hsum, indexWritten_endsDone rfl (toNat_glyphAddr _)⟩

/-- Settles O38: the handler is one write of memory, whose digits do not overlap (`read_bcdMem_digits`). -/
theorem bcdWritesThreeDigits : Obligations.BcdWritesThreeDigits := by
  unfold Obligations.BcdWritesThreeDigits
  intro s x hwf
  obtain ⟨hhundreds, htens, hones⟩ := read_bcdMem_digits hwf x
  refine ⟨decode_ldB x, _, memoryWritten_endsDone rfl, ?_, ?_, ?_, fun c hc => read_bcdMem_other hwf x hc⟩
  · exact (congrArg BitVec.toNat hhundreds).trans (toNat_bcdHundreds _)
  · exact (congrArg BitVec.toNat htens).trans (toNat_bcdTens _)
  · exact (congrArg BitVec.toNat hones).trans (toNat_bcdOnes _)

/-- Settles O39: the handler is one write of memory, the one `dumpRegs_spec` describes. -/
theorem dumpStoresRegistersBelowX : Obligations.DumpStoresRegistersBelowX := by
  unfold Obligations.DumpStoresRegistersBelowX
  intro s x hwf
  obtain ⟨-, hstored, hother⟩ := dumpRegs_spec hwf s.i.toNat (Nat.le_of_lt x.isLt)
  refine ⟨decode_ldMemVx x, _, memoryWritten_endsDone rfl, fun r hr => ?_, hother⟩
  exact (hstored r.val hr).trans (by rw [regNo_val])

/-- Settles O40: the handler writes registers alone (`ldVxMem_endsDone`), those `loadRegs_reg` describes. -/
theorem loadFillsRegistersThroughX : Obligations.LoadFillsRegistersThroughX := by
  unfold Obligations.LoadFillsRegistersThroughX
  intro s x
  refine ⟨decode_ldVxMem x, _, ldVxMem_endsDone s x, fun r => ?_⟩
  calc (loadRegs s s.i.toNat (x.val + 1)).reg r
    _ = if r.val < x.val + 1 then s.mem.read (s.i.toNat + r.val) else s.reg r := loadRegs_reg s _ x.isLt r
    _ = if r ≤ x then s.mem.read (s.i.toNat + r.val) else s.reg r := by simp only [Nat.lt_succ_iff, Fin.le_def]

end Sys2Proof.Machine
end

section
/-! SUPPORT. The obligation of spec/60_exceptions.md on a step that completes (R240): which ends of a step complete, what each leaves in the
timers, and the obligation. -/

namespace Sys2Proof.Machine

/-! ### Steps that complete -/

/-- A handler that leaves the core neither halted nor waiting took no fault and did not suspend. -/
theorem doneEnd_of_completed {i : Instr} {s t : State} (h : exec i s = .next t) (hhalted : t.halted = false)
    (hawait : t.await = none) : DoneEnd i s t := by
  obtain ⟨u, hu, hend⟩ := exec_ends i s
  obtain rfl : t = u := by simpa [h] using hu
  rcases hend with hfault | ⟨x, -, -, rfl⟩ | hdone
  · obtain ⟨f, rfl, -⟩ := hfault.taken
    simp at hhalted
  · simp at hawait
  · exact hdone

/-- A suspended step that leaves the core no longer waiting had a key event, and completes its FX0A (R104). -/
theorem suspendedStep_completed {r : Reg} {s : State} (hs : s.await = some r) (h : (suspendedStep r s).await = none) :
    ∃ k, suspendedStep r s = s.clearAwait.keyResolved r k := by
  cases hk : s.inp.keyEvent with
  | none => simp [suspendedStep_of_none hk, hs] at h
  | some k => exact ⟨k, suspendedStep_of_event hk⟩

/-- FX15 that answers `t`: DT is V[X], ticked (R191). -/
theorem exec_ldDtVx_dt {s t : State} {x : Reg} (h : exec (.ldDtVx x) s = .next t) :
    t.dt = tickTimer s.inp.dtDue (s.reg x) := by
  cases h
  rfl

/-- FX18 that answers `t`: ST is V[X], ticked (R192). -/
theorem exec_ldStVx_st {s t : State} {x : Reg} (h : exec (.ldStVx x) s = .next t) :
    t.st = tickTimer s.inp.stDue (s.reg x) := by
  cases h
  rfl

/-! ### The obligation -/

/-- Settles O12: a halted step stays halted; a suspended step that completes is the end of an FX0A (`keyResolved_spec`); a running step
that completes ends in `DoneEnd`, which ticks each timer the instruction does not write, and FX15 and FX18 tick what they wrote. -/
theorem completedStepsTickOnce : Obligations.CompletedStepsTickOnce := by
  unfold Obligations.CompletedStepsTickOnce
  intro s a t hstep hhalted hawait
  cases hs : s.halted with
  | true =>
    cases (stepWith_halted a hs).symm.trans hstep
    simp [hs] at hhalted
  | false =>
    cases ha : s.await with
    | some r =>
      cases (stepWith_suspended a hs ha).symm.trans hstep
      obtain ⟨k, hk⟩ := suspendedStep_completed (by exact ha) hawait
      obtain ⟨-, -, -, -, hdt, hst, -⟩ := keyResolved_spec (s.setInp a).latchKeys.clearAwait r k
      rw [hk]
      exact ⟨fun _ => hdt, fun _ => hst, by simp, by simp⟩
    | none =>
      have hexec := (stepWith_running a hs ha).symm.trans hstep
      have hdone := doneEnd_of_completed hexec hhalted hawait
      refine ⟨fun hi => ?_, fun hi => ?_, fun x _ hi => ?_, fun x _ hi => ?_⟩
      · rw [hdone.dt (hi rfl), toNat_tickTimer]
      · rw [hdone.st (hi rfl), toNat_tickTimer]
      · rw [exec_ldDtVx_dt (hi ▸ hexec), toNat_tickTimer]
        rfl
      · rw [exec_ldStVx_st (hi ▸ hexec), toNat_tickTimer]
        rfl

end Sys2Proof.Machine
end

section
/-! SUPPORT. The obligation of spec/70_reset_and_hazards.md on load (R261 to R264): the two outcomes of a load, by the length of the image,
the parts neither of them takes from the state before, and the obligation. -/

namespace Sys2Proof.Machine

/-- An image that fits is copied to 0x200 up, over the reset memory (R263). -/
theorem load_of_fits {image : List Byte} (h : image.length ≤ 4096 - 0x200) (s : State) (f : Font) :
    load image s f = ({ s.loadReset f with mem := copyImage image 0x200 (fontMemory f), loadError := false }, .ok) :=
  if_neg (Nat.not_lt.mpr h)

/-- An image that does not fit is rejected, and nothing of it is copied (R262). -/
theorem load_of_tooLong {image : List Byte} (h : 4096 - 0x200 < image.length) (s : State) (f : Font) :
    load image s f = ({ s.loadReset f with loadError := true }, .tooLarge) :=
  if_pos h

/-- Whatever memory and load_error are set to after the reset part of a load, every other part of the core is as at reset. -/
theorem loadReset_keeps (s : State) (f : Font) (m : Memory) (e : Bool) :
    KeepsAllBut [.memory, .environment, .loadError] (State.resetWith f) { s.loadReset f with mem := m, loadError := e } := by
  intro p hp
  cases p <;> simp_all [Part.same, State.loadReset, State.reg, State.entry]

/-- A load leaves every part at its reset value but memory, load_error and the model's input fields, whether it is rejected or not (R261). -/
theorem load_keeps (image : List Byte) (s : State) (f : Font) :
    KeepsAllBut [.memory, .environment, .loadError] (State.resetWith f) (load image s f).1 := by
  by_cases h : image.length ≤ 4096 - 0x200
  · rw [load_of_fits h]
    exact loadReset_keeps s f _ false
  · rw [load_of_tooLong (Nat.not_le.mp h)]
    exact loadReset_keeps s f (s.loadReset f).mem true

/-- The memory an image that fits leaves: its bytes from 0x200 up, every other address as at reset (R263). -/
theorem load_mem_of_fits {image : List Byte} (h : image.length ≤ 4096 - 0x200) (s : State) (f : Font) :
    (∀ k (hk : k < image.length), (load image s f).1.mem.read (0x200 + k) = image[k]) ∧
      ∀ a, a < 4096 → (a < 0x200 ∨ 0x200 + image.length ≤ a) →
        (load image s f).1.mem.read a = (State.resetWith f).mem.read a := by
  obtain ⟨hwf, -, -⟩ := fontMemory_spec f
  obtain ⟨-, hcopied, hother⟩ := copyImage_spec image hwf (a := 0x200) (by omega)
  rw [load_of_fits h]
  exact ⟨hcopied, hother⟩

/-- Settles O49: the frame is `load_keeps`; an image that fits is copied (`load_mem_of_fits`), the empty one to no address; one that
does not fit leaves the reset memory alone. -/
theorem loadResetsThenCopiesImage : Obligations.LoadResetsThenCopiesImage := by
  unfold Obligations.LoadResetsThenCopiesImage
  intro image s f
  refine ⟨_, rfl, load_keeps image s f, fun hfits => ?_, fun hempty => ?_, fun hlong => ?_⟩
  · obtain ⟨hcopied, hother⟩ := load_mem_of_fits hfits s f
    have hload := load_of_fits hfits s f
    exact ⟨by rw [hload], by rw [hload], hcopied, hother⟩
  · subst hempty
    rw [load_of_fits (Nat.zero_le _)]
    rfl
  · rw [load_of_tooLong hlong]
    exact ⟨rfl, rfl, fun _ => rfl⟩

end Sys2Proof.Machine
end

section
/-! SUPPORT. The obligations of spec/30_encoding.md: `decode` and `encode` undo each other, and the dispatch on fields agrees with the table
of R80, whose rows are searched family by family. -/

namespace Sys2Proof

/-! ### Well-formed catch-all rows: the words that no earlier row of their family takes (R75 to R78) -/

theorem wellFormed_sys_iff (nnn : Addr12) :
    (Instr.sys nnn).wellFormed = true ↔ nnn.extractLsb' 0 8 ≠ 0xE0#8 ∧ nnn.extractLsb' 0 8 ≠ 0xEE#8 := by
  simp [Instr.wellFormed, family0Bytes]

/-- The nibbles of family 0x8 that are taken are 0 to 7 and 0xE. -/
theorem wellFormed_ignored8_iff (x y n : Nibble) :
    (Instr.ignored8 x y n).wellFormed = true ↔ 8 ≤ n.toNat ∧ n ≠ 0xE#4 := by
  have htaken : ∀ n : Nibble, n ∉ family8Nibbles ↔ 8 ≤ n.toNat ∧ n ≠ 0xE#4 := by decide
  simpa [Instr.wellFormed] using htaken n

theorem wellFormed_ignoredE_iff (x : Nibble) (nn : Byte) :
    (Instr.ignoredE x nn).wellFormed = true ↔ nn ≠ 0x9E#8 ∧ nn ≠ 0xA1#8 := by
  simp [Instr.wellFormed, familyEBytes]

theorem wellFormed_ignoredF_iff (x : Nibble) (nn : Byte) :
    (Instr.ignoredF x nn).wellFormed = true ↔ nn ∉ familyFBytes := by
  simp [Instr.wellFormed]

/-! ### Decoding undoes encoding (R70, R80) -/

theorem decode_jpV0 (nnn : Addr12) : decode (wordNNN 0xB#4 nnn) = .jpV0 nnn := by simp [decode]

theorem decode_ldVxK (x : Reg) : decode (wordXNN 0xF#4 (regBits x) 0x0A#8) = .ldVxK x := by
  simp [decode_wordXNN_familyF, decodeF]

/-- Row by row, by the decoding lemma of the row. -/
theorem decode_encode : ∀ i : Instr, i.wellFormed = true → decode (encode i) = i
  | .cls n, _ => decode_cls n
  | .ret n, _ => decode_ret n
  | .jp nnn, _ => decode_jp nnn
  | .call nnn, _ => decode_call nnn
  | .seImm x nn, _ => decode_seImm x nn
  | .sneImm x nn, _ => decode_sneImm x nn
  | .seReg x y n, _ => decode_seReg x y n
  | .ldImm x nn, _ => decode_ldImm x nn
  | .addImm x nn, _ => decode_addImm x nn
  | .ldReg x y, _ => decode_ldReg x y
  | .orReg x y, _ => decode_orReg x y
  | .andReg x y, _ => decode_andReg x y
  | .xorReg x y, _ => decode_xorReg x y
  | .addReg x y, _ => decode_addReg x y
  | .subReg x y, _ => decode_subReg x y
  | .shr x y, _ => decode_shr x y
  | .subnReg x y, _ => decode_subnReg x y
  | .shl x y, _ => decode_shl x y
  | .sneReg x y n, _ => decode_sneReg x y n
  | .ldI nnn, _ => decode_ldI nnn
  | .jpV0 nnn, _ => decode_jpV0 nnn
  | .rnd x nn, _ => decode_rnd x nn
  | .drw x y n, _ => decode_drw x y n
  | .skp x, _ => decode_skp x
  | .sknp x, _ => decode_sknp x
  | .ldVxDt x, _ => decode_ldVxDt x
  | .ldVxK x, _ => decode_ldVxK x
  | .ldDtVx x, _ => decode_ldDtVx x
  | .ldStVx x, _ => decode_ldStVx x
  | .addI x, _ => decode_addI x
  | .ldF x, _ => decode_ldF x
  | .ldB x, _ => decode_ldB x
  | .ldMemVx x, _ => decode_ldMemVx x
  | .ldVxMem x, _ => decode_ldVxMem x
  | .sys nnn, h => decode_sys ((wellFormed_sys_iff nnn).mp h).1 ((wellFormed_sys_iff nnn).mp h).2
  | .ignored8 x y n, h =>
    decode_ignored8 x y ((wellFormed_ignored8_iff x y n).mp h).1 ((wellFormed_ignored8_iff x y n).mp h).2
  | .ignoredE x nn, h =>
    decode_ignoredE x ((wellFormed_ignoredE_iff x nn).mp h).1 ((wellFormed_ignoredE_iff x nn).mp h).2
  | .ignoredF x nn, h => decode_ignoredF x ((wellFormed_ignoredF_iff x nn).mp h)

/-- The two bytes of a word, high byte first, are decoded as the word and nothing after them is consumed (R70). -/
theorem decodeBytes_word (w : Word) (rest : List Byte) :
    decodeBytes (highByte w :: lowByte w :: rest) = .ok (decode w, rest) := by
  rw [decodeBytes, wordOfBytes_high_low]

/-! ### A decoded word is well formed: the catch-all of a family is the last branch of its dispatch -/

theorem wellFormed_decode0 (w : Word) : (decode0 w).wellFormed = true := by
  unfold decode0
  split_ifs with hcls hret
  · rfl
  · rfl
  · exact (wellFormed_sys_iff _).mpr (by simp [hcls, hret])

theorem wellFormed_decode8 (w : Word) : (decode8 w).wellFormed = true := by
  unfold decode8
  split
  case h_10 =>
    have hlt := (fieldN w).isLt
    refine (wellFormed_ignored8_iff _ _ _).mpr ⟨?_, fun h => ?_⟩
    · simp only [imp_false] at *
      omega
    · simp [h] at *
  all_goals rfl

theorem wellFormed_decodeE (w : Word) : (decodeE w).wellFormed = true := by
  unfold decodeE
  split
  case h_3 hskp hsknp =>
    exact (wellFormed_ignoredE_iff _ _).mpr ⟨fun h => hskp (congrArg BitVec.toNat h), fun h => hsknp (congrArg BitVec.toNat h)⟩
  all_goals rfl

theorem wellFormed_decodeF (w : Word) : (decodeF w).wellFormed = true := by
  unfold decodeF
  split
  case h_10 =>
    refine (wellFormed_ignoredF_iff _ _).mpr fun h => ?_
    have hmem : (fieldNN w).toNat ∈ familyFBytes.map BitVec.toNat := List.mem_map_of_mem h
    simp_all [familyFBytes]
  all_goals rfl

theorem wellFormed_decode (w : Word) : (decode w).wellFormed = true := by
  unfold decode
  split
  case h_1 => exact wellFormed_decode0 w
  case h_9 => exact wellFormed_decode8 w
  case h_15 => exact wellFormed_decodeE w
  case h_16 => exact wellFormed_decodeF w
  all_goals rfl

/-! ### The rows of a family (R80) -/

/-- What a mask keeps of the family, by the mask's own bits of it. -/
theorem fieldF_and {m : Word} (hm : fieldF m = BitVec.allOnes 4) (w : Word) : fieldF (w &&& m) = fieldF w := by
  rw [← BitVec.and_allOnes (x := fieldF w), ← hm]
  exact BitVec.extractLsb'_and

/-- The words that agree under the mask of a row that fixes the family alone. -/
theorem and_family_eq_iff (w v : Word) : w &&& 0xF000#16 = v &&& 0xF000#16 ↔ fieldF w = fieldF v := by
  refine ⟨fun h => ?_, fun h => ?_⟩
  · simpa only [fieldF_and (m := 0xF000#16) rfl] using congrArg fieldF h
  · rw [Laws.OwnRow.and_family h, Laws.OwnRow.and_family rfl]

/-- The words that agree under the mask of a row that fixes the family and the low nibble. -/
theorem and_family_nibble_eq_iff (w v : Word) :
    w &&& 0xF00F#16 = v &&& 0xF00F#16 ↔ fieldF w = fieldF v ∧ fieldN w = fieldN v := by
  have hN : ∀ w : Word, fieldN (w &&& 0xF00F#16) = fieldN w := fun w => by
    rw [fieldN, BitVec.extractLsb'_and]
    exact BitVec.and_allOnes
  refine ⟨fun h => ⟨?_, ?_⟩, fun ⟨hf, hn⟩ => ?_⟩
  · simpa only [fieldF_and (m := 0xF00F#16) rfl] using congrArg fieldF h
  · simpa only [hN] using congrArg fieldN h
  · rw [Laws.OwnRow.and_family_nibble hf hn, Laws.OwnRow.and_family_nibble rfl rfl]

/-- The words that agree under the mask of a row that fixes the family and the low byte. -/
theorem and_family_byte_eq_iff (w v : Word) :
    w &&& 0xF0FF#16 = v &&& 0xF0FF#16 ↔ fieldF w = fieldF v ∧ fieldNN w = fieldNN v := by
  have hNN : ∀ w : Word, fieldNN (w &&& 0xF0FF#16) = fieldNN w := fun w => by
    rw [fieldNN, BitVec.extractLsb'_and]
    exact BitVec.and_allOnes
  refine ⟨fun h => ⟨?_, ?_⟩, fun ⟨hf, hn⟩ => ?_⟩
  · simpa only [fieldF_and (m := 0xF0FF#16) rfl] using congrArg fieldF h
  · simpa only [hNN] using congrArg fieldNN h
  · rw [Laws.OwnRow.and_family_byte hf hn, Laws.OwnRow.and_family_byte rfl rfl]

/-- The word has the low nibble or the low byte that the row fixes, if it fixes one besides the family. -/
def hasRowLowBits (w : Word) (r : OpcodeRow) : Bool :=
  decide ((r.mask = 0xF00F#16 → (fieldN w).toNat = r.matchBits.toNat % 16) ∧
    (r.mask = 0xF0FF#16 → (fieldNN w).toNat = r.matchBits.toNat % 256))

/-- A row matches the words of its family that have its low bits. -/
theorem row_matches_iff {w : Word} {r : OpcodeRow} (hr : r ∈ opcodeMap) :
    w &&& r.mask = r.matchBits ↔ (fieldF r.matchBits).toNat = (fieldF w).toNat ∧ hasRowLowBits w r = true := by
  have hself : ∀ r ∈ opcodeMap, r.matchBits &&& r.mask = r.matchBits := by decide
  have hmask : ∀ r ∈ opcodeMap, r.mask = 0xF000#16 ∨ r.mask = 0xF00F#16 ∨ r.mask = 0xF0FF#16 := by decide
  have hN : (fieldN r.matchBits).toNat = r.matchBits.toNat % 16 := BitVec.extractLsb'_toNat ..
  have hNN : (fieldNN r.matchBits).toNat = r.matchBits.toNat % 256 := BitVec.extractLsb'_toNat ..
  rw [show w &&& r.mask = r.matchBits ↔ w &&& r.mask = r.matchBits &&& r.mask by rw [hself r hr],
    eq_comm (a := (fieldF r.matchBits).toNat), hasRowLowBits, ← hN, ← hNN]
  rcases hmask r hr with h | h | h
  · simp [h, and_family_eq_iff, BitVec.toNat_inj]
  · simp [h, and_family_nibble_eq_iff, BitVec.toNat_inj]
  · simp [h, and_family_byte_eq_iff, BitVec.toNat_inj]

/-- The rows of R80 of the family `k`, in the table's order. -/
def familyRows (k : Nat) : List OpcodeRow := opcodeMap.filter fun r => (fieldF r.matchBits).toNat == k

/-- The first matching row is the first one in the word's family with its low bits. -/
theorem firstRow_eq_find_familyRows {w : Word} {k : Nat} (hk : (fieldF w).toNat = k) :
    firstRow w = ((familyRows k).find? (hasRowLowBits w)).map OpcodeRow.number := by
  rw [firstRow, familyRows, List.find?_filter]
  congr 1
  refine List.find?_congr fun r hr => Bool.eq_iff_iff.mpr ?_
  simp only [beq_iff_eq, decide_eq_true_eq, row_matches_iff hr, hk]

/-- A family of one row, which fixes no other bits. -/
theorem firstRow_of_one_row {w v : Word} {k n : Nat} (hk : (fieldF w).toNat = k)
    (hrows : familyRows k = [⟨n, v, 0xF000#16⟩]) : firstRow w = some n := by
  rw [firstRow_eq_find_familyRows hk, hrows]
  rfl

/-! Within a family the branches of the dispatch stand in the order of the family's rows, the catch-all last. -/

theorem firstRow_family0 {w : Word} (hk : (fieldF w).toNat = 0x0) : firstRow w = some (decode0 w).row := by
  have hrows : familyRows 0x0 = [⟨1, 0x00E0#16, 0xF0FF#16⟩, ⟨2, 0x00EE#16, 0xF0FF#16⟩, ⟨35, 0x0000#16, 0xF000#16⟩] := rfl
  rw [firstRow_eq_find_familyRows hk, hrows]
  unfold decode0
  split_ifs <;> simp_all [List.find?, hasRowLowBits, Instr.row, BitVec.toNat_eq]

theorem firstRow_family8 {w : Word} (hk : (fieldF w).toNat = 0x8) : firstRow w = some (decode8 w).row := by
  have hrows : familyRows 0x8 = opcodeRows2 ++ [⟨36, 0x8000#16, 0xF000#16⟩] := rfl
  rw [firstRow_eq_find_familyRows hk, hrows]
  unfold decode8
  split <;> simp_all [List.find?, opcodeRows2, hasRowLowBits, Instr.row]

theorem firstRow_familyE {w : Word} (hk : (fieldF w).toNat = 0xE) : firstRow w = some (decodeE w).row := by
  have hrows : familyRows 0xE = [⟨24, 0xE09E#16, 0xF0FF#16⟩, ⟨25, 0xE0A1#16, 0xF0FF#16⟩, ⟨37, 0xE000#16, 0xF000#16⟩] := rfl
  rw [firstRow_eq_find_familyRows hk, hrows]
  unfold decodeE
  split <;> simp_all [List.find?, hasRowLowBits, Instr.row]

theorem firstRow_familyF {w : Word} (hk : (fieldF w).toNat = 0xF) : firstRow w = some (decodeF w).row := by
  have hrows : familyRows 0xF = opcodeRows3.drop 7 ++ opcodeRows4.take 6 ++ [⟨38, 0xF000#16, 0xF000#16⟩] := rfl
  rw [firstRow_eq_find_familyRows hk, hrows]
  unfold decodeF
  split <;> simp_all [List.find?, opcodeRows3, opcodeRows4, hasRowLowBits, Instr.row]

theorem firstRow_decode (w : Word) : firstRow w = some (decode w).row := by
  unfold decode
  split
  case h_1 hk => exact firstRow_family0 hk
  case h_9 hk => exact firstRow_family8 hk
  case h_15 hk => exact firstRow_familyE hk
  case h_16 =>
    have hlt := (fieldF w).isLt
    have hk : (fieldF w).toNat = 0xF := by
      simp only [imp_false] at *
      omega
    exact firstRow_familyF hk
  all_goals exact firstRow_of_one_row ‹_› rfl

/-! ### The obligations -/

/-- Settles O1: row by row by `decode_encode`; the bytes of the word are the word again. -/
theorem decodeInvertsEncode : Obligations.DecodeInvertsEncode := by
  unfold Obligations.DecodeInvertsEncode
  intro i hi
  exact ⟨decode_encode i hi, fun rest => by rw [decodeBytes_word, decode_encode i hi]⟩

/-- Settles O2, by the branches of the dispatch: the fixed fields of the row taken and the fields it keeps are all of the word. -/
theorem encodeInvertsDecode : Obligations.EncodeInvertsDecode := by
  unfold Obligations.EncodeInvertsDecode
  exact fun w => ⟨wellFormed_decode w, encode_decode w⟩

/-- Settles O3, family by family: only rows of the word's family can match, and its dispatch tries them in the table's order. -/
theorem decodeTakesFirstMatchingRow : Obligations.DecodeTakesFirstMatchingRow := by
  unfold Obligations.DecodeTakesFirstMatchingRow
  exact firstRow_decode

/-- Settles O4: twelve evaluations of the decoder. -/
theorem sampleWordsDecode : Obligations.SampleWordsDecode := by
  unfold Obligations.SampleWordsDecode
  decide

end Sys2Proof

namespace Sys2Proof.Machine

theorem toNat_wordOfBytes (hi lo : Byte) : (wordOfBytes hi lo).toNat = 256 * hi.toNat + lo.toNat := by
  have hlo := lo.isLt
  rw [wordOfBytes, BitVec.toNat_append, Nat.shiftLeft_eq, Nat.mul_comm, ← Nat.two_pow_add_eq_or_of_lt hlo]

/-- Settles O5: the word is its bytes, and an address is read modulo 4096 (`Memory.read_mod`). -/
theorem fetchReadsBigEndianWord : Obligations.FetchReadsBigEndianWord := by
  unfold Obligations.FetchReadsBigEndianWord
  intro s
  rw [fetchWord, toNat_wordOfBytes, Memory.read_mod, Memory.read_mod]

/-- Settles O6: the fetched word is `encode i`, which decodes to `i`; the state it runs on is the sampled and latched one. -/
theorem stepRunsDecodedInstruction : Obligations.StepRunsDecodedInstruction := by
  unfold Obligations.StepRunsDecodedInstruction
  intro s i hhalted hawait hi hhigh hlow
  have hfetch : fetchWord s = encode i := by rw [fetchWord, hhigh, hlow, wordOfBytes_high_low]
  rw [step_running hhalted hawait, hfetch, decode_encode i hi, sample_spec]
  rfl

end Sys2Proof.Machine
end

section
/-! SUPPORT. The obligations that hold of every step: that it answers a next state, the invariant of the machine, and what it does to the
timers. First everything a step can do, said once (`step_cases`); then the invariant, step by step and after a load; then the timers. -/

namespace Sys2Proof.Machine

/-! ### Everything a step can do (spec/40_pipeline.md R109) -/

/-- What a step from `s` to `t` is: of a halted core, of a suspended one, or of a handler that reaches one of its three ends. -/
def StepCase (s t : State) : Prop :=
  (s.halted = true ∧ t = s.sample) ∨
  (s.halted = false ∧ ∃ r, s.await = some r ∧ t = suspendedStep r s.sample.latchKeys) ∨
  (s.halted = false ∧ s.await = none ∧ exec (decode (fetchWord s)) s.sample.latchKeys = .next t ∧
    (FaultEnd (decode (fetchWord s)) s.sample.latchKeys t ∨ WaitEnd (decode (fetchWord s)) s.sample.latchKeys t ∨
      DoneEnd (decode (fetchWord s)) s.sample.latchKeys t))

theorem step_cases (s : State) : ∃ t, step s = .next t ∧ StepCase s t := by
  cases hhalted : s.halted with
  | true => exact ⟨_, step_halted hhalted, .inl ⟨hhalted, rfl⟩⟩
  | false =>
    cases hawait : s.await with
    | some r => exact ⟨_, step_suspended hhalted hawait, .inr (.inl ⟨hhalted, r, hawait, rfl⟩)⟩
    | none =>
      obtain ⟨t, hexec, hend⟩ := exec_ends (decode (fetchWord s)) s.sample.latchKeys
      exact ⟨t, (step_running hhalted hawait).trans hexec, .inr (.inr ⟨hhalted, hawait, hexec, hend⟩)⟩

theorem stepCase_of_step {s t : State} (h : step s = .next t) : StepCase s t := by
  obtain ⟨u, hu, hcase⟩ := step_cases s
  cases hu.symm.trans h
  exact hcase

/-- The two outcomes of a suspended step (R104). -/
theorem suspendedStep_cases (r : Reg) (s : State) :
    suspendedStep r s = s ∨ ∃ k, suspendedStep r s = s.clearAwait.keyResolved r k := by
  cases hk : s.inp.keyEvent with
  | none => exact .inl (suspendedStep_of_none hk)
  | some k => exact .inr ⟨k, suspendedStep_of_event hk⟩

/-! ### The invariant -/

theorem fetchWord_congr {s t : State} (hmem : t.mem = s.mem) (hpc : t.pc = s.pc) : fetchWord t = fetchWord s := by
  simp only [fetchWord, hmem, hpc]

/-- The invariant speaks of memory, PC, SP, AWAIT and the fault latch only. -/
theorem Inv.congr {s t : State} (h : Inv s) (hmem : t.mem = s.mem) (hpc : t.pc = s.pc) (hsp : t.sp = s.sp)
    (hawait : t.await = s.await) (hhalted : t.halted = s.halted) (hfault : t.fault = s.fault) : Inv t := by
  have hfetch := fetchWord_congr hmem hpc
  obtain ⟨hwf, hwaiting, hhn, hrecord, hcause⟩ := h
  constructor <;> simpa only [hmem, hpc, hsp, hawait, hhalted, hfault, hfetch]

/-- Of a core that is neither waiting nor halted, the invariant says only that memory is canonical. -/
theorem Inv.of_running {s : State} (hmem : s.mem.wf = true) (hawait : s.await = none) (hhalted : s.halted = false)
    (hfault : s.fault = none) : Inv s := by
  constructor <;> simp [hmem, hawait, hhalted, hfault]

theorem Inv.fault_none {s : State} (h : Inv s) (hhalted : s.halted = false) : s.fault = none := by
  simpa [hhalted] using h.record

theorem Inv.latch {s : State} (h : Inv s) : Inv s.sample.latchKeys :=
  h.congr (by simp) (by simp) (by simp) (by simp) (by simp) (by simp)

/-- A fault leaves a record that names its cause (R220, R222). -/
theorem Inv.of_faultEnd {s t : State} (h : Inv s) (hawait : s.await = none) (hend : FaultEnd (decode (fetchWord s)) s t) :
    Inv t := by
  have hstack := hend.stackFault
  obtain ⟨f, rfl, hcall, hret⟩ := hend.taken
  rw [encode_decode]
  refine ⟨h.memory, by simp [hawait], fun _ => hawait, by simp, fun g hg => ?_⟩
  obtain rfl : ⟨faultCode f, s.pc, fetchWord s⟩ = g := by simpa using hg
  refine ⟨rfl, (fetchWord_congr rfl rfl).symm, ?_⟩
  rcases hstack with ⟨nnn, hi, hsp⟩ | ⟨n, hi, hsp⟩
  · exact .inl ⟨hcall nnn hi, hsp, nnn, hi⟩
  · exact .inr ⟨hret n hi, hsp, n, hi⟩

/-- A suspension leaves a core that stands at its FX0A (R36). -/
theorem Inv.of_waitEnd {s t : State} (h : Inv s) (hhalted : s.halted = false)
    (hend : WaitEnd (decode (fetchWord s)) s t) : Inv t := by
  obtain ⟨x, hi, -, rfl⟩ := hend
  have hfault := h.fault_none hhalted
  refine ⟨h.memory, fun r hr => ?_, by simp [hhalted], by simp [hhalted, hfault], by simp [hfault]⟩
  obtain rfl : x = r := by simpa using hr
  exact hi

theorem Inv.of_doneEnd {i : Instr} {s t : State} (h : Inv s) (hhalted : s.halted = false) (hawait : s.await = none)
    (hend : DoneEnd i s t) : Inv t :=
  .of_running (hend.memory h.memory) (hend.await.trans hawait) (hend.halted.trans hhalted)
    (hend.fault.trans (h.fault_none hhalted))

theorem Inv.of_suspendedStep {s : State} (h : Inv s) (hhalted : s.halted = false) (r : Reg) : Inv (suspendedStep r s) := by
  rcases suspendedStep_cases r s with hstep | ⟨k, hstep⟩ <;> rw [hstep]
  · exact h
  · exact .of_running h.memory rfl hhalted (h.fault_none hhalted)

/-- Settles O14: a step of a halted core changes nothing the invariant speaks of; every other one acts on the latched state, of which the
invariant holds too, and each way a suspended step or a handler can end keeps it. -/
theorem stepKeepsInvariant : Obligations.StepKeepsInvariant := by
  unfold Obligations.StepKeepsInvariant
  intro s t hinv hstep
  have hlatch := hinv.latch
  rcases stepCase_of_step hstep with ⟨-, rfl⟩ | ⟨hhalted, r, -, rfl⟩ | ⟨hhalted, hawait, -, hend⟩
  · exact hinv.congr (by simp) (by simp) (by simp) (by simp) (by simp) (by simp)
  · exact hlatch.of_suspendedStep (by simpa using hhalted) r
  · rw [← fetchWord_latch] at hend
    have hhalted : s.sample.latchKeys.halted = false := by simpa using hhalted
    have hawait : s.sample.latchKeys.await = none := by simpa using hawait
    rcases hend with hfault | hwait | hdone
    · exact hlatch.of_faultEnd hawait hfault
    · exact hlatch.of_waitEnd hhalted hwait
    · exact hlatch.of_doneEnd hhalted hawait hdone

theorem wf_fontMemory (f : Font) : (fontMemory f).wf = true := by
  obtain ⟨hwf, -, -⟩ := fontMemory_spec f
  exact hwf

/-- Settles O15: after reset the core is running, and its memory is canonical. -/
theorem resetMeetsInvariant : Obligations.ResetMeetsInvariant := by
  unfold Obligations.ResetMeetsInvariant
  exact ⟨.of_running wf_reset rfl rfl rfl, fun f => .of_running (wf_fontMemory f) rfl rfl rfl⟩

/-- Settles O16: a load leaves the core running, with the reset memory or the image copied over it (`copyImage_spec`). -/
theorem loadEstablishesInvariant : Obligations.LoadEstablishesInvariant := by
  unfold Obligations.LoadEstablishesInvariant
  intro image s f
  by_cases h : image.length ≤ 4096 - 0x200
  · obtain ⟨hwf, -, -⟩ := copyImage_spec image (wf_fontMemory f) (a := 0x200) (by omega)
    rw [load_of_fits h]
    exact .of_running hwf rfl rfl rfl
  · rw [load_of_tooLong (Nat.not_le.mp h)]
    exact .of_running (wf_fontMemory f) rfl rfl rfl

/-! ### A step answers, and what it does to the timers -/

/-- Settles O7, by `step_cases`. -/
theorem stepAlwaysAnswersNext : Obligations.StepAlwaysAnswersNext := by
  unfold Obligations.StepAlwaysAnswersNext
  intro s
  obtain ⟨t, ht, -⟩ := step_cases s
  exact ⟨t, ht⟩

/-- A step that ends halted or waiting does not tick (R243). -/
theorem step_uncompleted_keeps_timers {s t : State} (hstep : step s = .next t) (hend : t.halted = true ∨ t.await ≠ none) :
    t.dt = s.dt ∧ t.st = s.st := by
  rcases stepCase_of_step hstep with ⟨-, rfl⟩ | ⟨hhalted, r, -, rfl⟩ | ⟨hhalted, hawait, -, hfault | ⟨x, -, -, rfl⟩ | hdone⟩
  · simp
  · rcases suspendedStep_cases r s.sample.latchKeys with hsame | ⟨k, hcompleted⟩
    · simp [hsame]
    · simp [hcompleted, State.keyResolved, hhalted] at hend
  · obtain ⟨f, rfl, -⟩ := hfault.taken
    simp
  · simp
  · simp [hdone.halted, hdone.await, hhalted, hawait] at hend

/-- Settles O11: a step that ticks is one that completes, which leaves the core neither halted nor waiting. -/
theorem uncompletedStepsDoNotTick : Obligations.UncompletedStepsDoNotTick := by
  unfold Obligations.UncompletedStepsDoNotTick
  exact fun s a t hstep hend => step_uncompleted_keeps_timers (s := { s with inputs := a :: s.inputs }) hstep hend

/-- A step that executes no FX15 leaves DT as it was or ticks it (R193). -/
theorem step_dt {s t : State} (hstep : step s = .next t) (hi : ∀ x, decode (fetchWord s) ≠ .ldDtVx x) :
    t.dt = s.dt ∨ t.dt = tickTimer s.nextInput.dtDue s.dt := by
  rcases stepCase_of_step hstep with ⟨-, rfl⟩ | ⟨-, r, -, rfl⟩ | ⟨-, -, -, hfault | ⟨x, -, -, rfl⟩ | hdone⟩
  · simp
  · rcases suspendedStep_cases r s.sample.latchKeys with hsame | ⟨k, hcompleted⟩
    · simp [hsame]
    · simp [hcompleted, State.keyResolved]
  · obtain ⟨f, rfl, -⟩ := hfault.taken
    simp
  · simp
  · simp [hdone.dt hi]

theorem step_dt_bounds {s t : State} (hstep : step s = .next t) (hi : ∀ x, decode (fetchWord s) ≠ .ldDtVx x) :
    s.dt.toNat - 1 ≤ t.dt.toNat ∧ t.dt.toNat ≤ s.dt.toNat := by
  rcases step_dt hstep hi with hdt | hdt
  · rw [hdt]
    omega
  · rw [hdt, toNat_tickTimer, tickedValue]
    split <;> omega

/-- Settles O13, by induction on the number of steps, from the first step of the run on. -/
theorem delayTimerFallsAtMostOncePerStep : Obligations.DelayTimerFallsAtMostOncePerStep := by
  unfold Obligations.DelayTimerFallsAtMostOncePerStep
  intro k
  induction k with
  | zero =>
    intro s t hrun _
    cases hrun
    omega
  | succ k ih =>
    intro s t hrun hnone
    obtain ⟨u, hstep, -⟩ := step_cases s
    have hfirst := step_dt_bounds hstep fun x => hnone 0 s x (Nat.succ_pos k) (run_zero s)
    have hrest := ih u t ((run_succ hstep).symm.trans hrun) fun j v x hj hv =>
      hnone (j + 1) v x (Nat.succ_lt_succ hj) ((run_succ hstep).trans hv)
    omega

end Sys2Proof.Machine
end

section
/-! SUPPORT. The obligations that hold of every instruction, on what it writes: parts of the state, data registers. -/

namespace Sys2Proof.Machine

/-! ### FX0A by the key event it finds (spec/44_keypad.md R183) -/

theorem exec_ldVxK_none (x : Reg) {s : State} (h : s.inp.keyEvent = none) : exec (.ldVxK x) s = .next (s.suspend x) := by
  simp [exec, execLdVxK, h]

theorem exec_ldVxK_event (x : Reg) {s : State} {k : Key} (h : s.inp.keyEvent = some k) :
    exec (.ldVxK x) s = .next (s.finishReg x (keyByte k)) := by
  simp [exec, execLdVxK, h, keyResolved_eq_finishReg]

/-! ### The parts an instruction changes -/

theorem takeFault_keeps (s : State) (f : Fault) (w : Word) : KeepsAllBut [.faultLatch] s (s.takeFault f w) := by
  obtain ⟨-, -, hkeeps⟩ := takeFault_taken s f w
  exact hkeeps

/-- A handler that changes only the parts `ch`, then completes. -/
theorem keepsAllBut_complete {ch parts : List Part} {s u : State} {p : Addr} (hk : KeepsAllBut ch s u)
    (hsub : ch ++ [.pc, .dt, .st] ⊆ parts) : KeepsAllBut parts s (u.complete p) :=
  (hk.trans (complete_keeps u p)).mono hsub

/-- Each handler is one or two named writes, then an end: its frame is that of the writes and of the end. -/
theorem exec_keepsAllBut (i : Instr) (s : State) :
    ∃ t, exec i s = .next t ∧ KeepsAllBut (.pc :: .dt :: .st :: mayChange i) s t := by
  cases i
  case ret n =>
    cases h : s.sp with
    | none => exact ⟨_, exec_ret_empty n h, (takeFault_keeps s _ _).mono (by simp [mayChange])⟩
    | some k => exact ⟨_, exec_ret_entry n h, keepsAllBut_complete (pop_keeps s k) (by simp [mayChange])⟩
  case call nnn =>
    cases h : spPush s.sp with
    | none => exact ⟨_, exec_call_full nnn h, (takeFault_keeps s _ _).mono (by simp [mayChange])⟩
    | some k => exact ⟨_, exec_call_push nnn h, keepsAllBut_complete (push_keeps s k _) (by simp [mayChange])⟩
  case ldVxK x =>
    cases h : s.inp.keyEvent with
    | none => exact ⟨_, exec_ldVxK_none x h, (suspend_keeps s x).mono (by simp [mayChange])⟩
    | some k => exact ⟨_, exec_ldVxK_event x h, keepsAllBut_complete (setReg_keeps s x _) (by simp [mayChange])⟩
  case drw x y n =>
    obtain ⟨t, ⟨hexec, -, -, -, hk⟩, -⟩ := drw_endsDone s x y n
    exact ⟨t, hexec, hk⟩
  case cls => exact ⟨_, rfl, keepsAllBut_complete (setFb_keeps s 0) (by simp [mayChange])⟩
  case ldI | addI | ldF => exact ⟨_, rfl, keepsAllBut_complete (setI_keeps s _) (by simp [mayChange])⟩
  case ldB | ldMemVx => exact ⟨_, rfl, keepsAllBut_complete (setMem_keeps s _) (by simp [mayChange])⟩
  case ldVxMem => exact ⟨_, rfl, keepsAllBut_complete (loadRegs_keeps s _ _) (by simp [mayChange])⟩
  case ldDtVx => exact ⟨_, rfl, keepsAllBut_complete (setDt_keeps s _) (by simp [mayChange])⟩
  case ldStVx => exact ⟨_, rfl, keepsAllBut_complete (setSt_keeps s _) (by simp [mayChange])⟩
  case ldImm | addImm | ldReg | orReg | andReg | xorReg | rnd | ldVxDt =>
    exact ⟨_, rfl, keepsAllBut_complete (setReg_keeps s _ _) (by simp [mayChange])⟩
  case addReg | subReg | shr | subnReg | shl =>
    exact ⟨_, rfl, keepsAllBut_complete (setRegFlag_keeps s _ _ _) (by simp [mayChange])⟩
  all_goals exact ⟨_, rfl, keepsAllBut_complete (.refl [] s) (by simp [mayChange])⟩

/-- Settles O43, instruction by instruction. -/
theorem instructionsChangeOnlyTheirParts : Obligations.InstructionsChangeOnlyTheirParts := by
  unfold Obligations.InstructionsChangeOnlyTheirParts
  exact exec_keepsAllBut

/-! ### The registers an instruction writes -/

theorem finishReg_keepsRegs (s : State) (x : Reg) (b : Byte) : KeepsRegsBut [x] s (s.finishReg x b) := by
  intro r hr
  simp_all [State.finishReg]

theorem finishRegFlag_keepsRegs (s : State) (x : Reg) (b : Byte) (f : Bool) :
    KeepsRegsBut [x, flagReg] s (s.finishRegFlag x b f) := by
  intro r hr
  simp_all [State.finishRegFlag, State.setRegFlag]

/-- Settles O44: an instruction that may not change the registers keeps them all (`exec_keepsAllBut`); of the others each shape of
register write is looked at. -/
theorem instructionsWriteOnlyTheirRegisters : Obligations.InstructionsWriteOnlyTheirRegisters := by
  unfold Obligations.InstructionsWriteOnlyTheirRegisters
  intro i s
  obtain ⟨t, ht, hkeeps⟩ := exec_keepsAllBut i s
  refine ⟨t, ht, fun r hr => ?_⟩
  cases i
  case ldVxK x =>
    cases h : s.inp.keyEvent with
    | none =>
      cases (exec_ldVxK_none x h).symm.trans ht
      rfl
    | some k =>
      cases (exec_ldVxK_event x h).symm.trans ht
      exact finishReg_keepsRegs s x _ r (by simpa [writesReg] using hr)
  case drw x y n =>
    obtain ⟨u, ⟨hu, -⟩, hregs, -⟩ := drw_endsDone s x y n
    cases hu.symm.trans ht
    exact hregs r (by simpa [writesReg, flagReg] using hr)
  case ldVxMem x =>
    cases ht
    have hlt : ¬ r.val < x.val + 1 := by simpa [writesReg, Nat.lt_succ_iff] using hr
    exact (loadRegs_reg s _ x.isLt r).trans (if_neg hlt)
  case ldImm | addImm | ldReg | orReg | andReg | xorReg | rnd | ldVxDt =>
    cases ht
    exact finishReg_keepsRegs s _ _ r (by simpa [writesReg] using hr)
  case addReg | subReg | shr | subnReg | shl =>
    cases ht
    exact finishRegFlag_keepsRegs s _ _ _ r (by simpa [writesReg] using hr)
  all_goals exact hkeeps .regs (by simp [mayChange]) r

end Sys2Proof.Machine
end

section
/-! SUPPORT. The obligations that hold of every instruction, on what it reads: the sampled record, the data registers, the timers, and the
other parts. Each compares the outcomes of one instruction from two states (`Corresponds`). -/

namespace Sys2Proof.Machine

open Host (Outcome)

/-! ### Two outcomes -/

/-- Both outcomes are next states, and these are related. -/
def Corresponds (R : State → State → Prop) (o o' : Outcome State Fault Refusal) : Prop :=
  ∃ t t', o = .next t ∧ o' = .next t' ∧ R t t'

theorem Corresponds.next {R : State → State → Prop} {t t' : State} (h : R t t') : Corresponds R (.next t) (.next t') :=
  ⟨t, t', rfl, rfl, h⟩

/-- RET from two states with the same SP takes the same branch (R120). -/
theorem corresponds_ret {R : State → State → Prop} {s s' : State} (n : Nibble) (hsp : s'.sp = s.sp)
    (hfault : ∀ w, R (s.takeFault .stackUnderflow w) (s'.takeFault .stackUnderflow w))
    (hpop : ∀ k, R ((s.pop k).complete (s.entry k)) ((s'.pop k).complete (s'.entry k))) :
    Corresponds R (exec (.ret n) s) (exec (.ret n) s') := by
  cases h : s.sp with
  | none => exact ⟨_, _, exec_ret_empty n h, exec_ret_empty n (hsp.trans h), hfault _⟩
  | some k => exact ⟨_, _, exec_ret_entry n h, exec_ret_entry n (hsp.trans h), hpop k⟩

/-- CALL from two states with the same SP takes the same branch (R122). -/
theorem corresponds_call {R : State → State → Prop} {s s' : State} (nnn : Addr12) (hsp : s'.sp = s.sp)
    (hfault : ∀ w, R (s.takeFault .stackOverflow w) (s'.takeFault .stackOverflow w))
    (hpush : ∀ k, R ((s.push k s.nextPc).complete (zext16 nnn)) ((s'.push k s'.nextPc).complete (zext16 nnn))) :
    Corresponds R (exec (.call nnn) s) (exec (.call nnn) s') := by
  cases h : spPush s.sp with
  | none => exact ⟨_, _, exec_call_full nnn h, exec_call_full nnn (hsp ▸ h), hfault _⟩
  | some k => exact ⟨_, _, exec_call_push nnn h, exec_call_push nnn (hsp ▸ h), hpush k⟩

/-- FX0A from two states with the same key event takes the same branch (R183). -/
theorem corresponds_ldVxK {R : State → State → Prop} {s s' : State} (x : Reg) (hkey : s'.inp.keyEvent = s.inp.keyEvent)
    (hwait : R (s.suspend x) (s'.suspend x)) (hevent : ∀ b, R (s.finishReg x b) (s'.finishReg x b)) :
    Corresponds R (exec (.ldVxK x) s) (exec (.ldVxK x) s') := by
  cases h : s.inp.keyEvent with
  | none => exact ⟨_, _, exec_ldVxK_none x h, exec_ldVxK_none x (hkey.trans h), hwait⟩
  | some k => exact ⟨_, _, exec_ldVxK_event x h, exec_ldVxK_event x (hkey.trans h), hevent _⟩

/-- FX55 from two states with the same registers, memory and I stores the same (R204). -/
theorem corresponds_ldMemVx {R : State → State → Prop} {s s' : State} (x : Reg) (hv : s'.v = s.v) (hmem : s'.mem = s.mem)
    (hi : s'.i = s.i) (h : ∀ m, R ((s.setMem m).complete s.nextPc) ((s'.setMem m).complete s'.nextPc)) :
    Corresponds R (exec (.ldMemVx x) s) (exec (.ldMemVx x) s') :=
  ⟨_, _, exec_ldMemVx_congr x rfl rfl rfl, exec_ldMemVx_congr x hv hmem hi, h _⟩

/-- FX65 from two states with the same registers, memory and I loads the same (R205). -/
theorem corresponds_ldVxMem {R : State → State → Prop} {s s' : State} (x : Reg) (hv : s'.v = s.v) (hmem : s'.mem = s.mem)
    (hi : s'.i = s.i)
    (h : ∀ v, R (State.complete { s with v := v } s.nextPc) (State.complete { s' with v := v } s'.nextPc)) :
    Corresponds R (exec (.ldVxMem x) s) (exec (.ldVxMem x) s') :=
  ⟨_, _, exec_ldVxMem_congr x rfl rfl rfl, exec_ldVxMem_congr x hv hmem hi, h _⟩

/-! ### The sampled record (spec/40_pipeline.md R101) -/

theorem pressed_setInp {s : State} {a : StepIn} (h : a.oorPressed = s.inp.oorPressed) (code : Byte) :
    (s.setInp a).pressed code = s.pressed code := by
  simp [State.pressed, h]

/-- The due bits are read by the tick of every completion; before it, only four handlers look at the record. -/
theorem exec_setInp {i : Instr} {s : State} {a : StepIn} (h : sameInputs i a s.inp) :
    Corresponds (fun t t' => t.setInp a = t') (exec i s) (exec i (s.setInp a)) := by
  obtain ⟨hdt, hst, hrand, hkey, hoor⟩ := h
  have hcomplete : ∀ (u : State) (p : Addr), u.inp = s.inp → (u.complete p).setInp a = (u.setInp a).complete p :=
    fun u p hu => (complete_setInp u a p (hu ▸ hdt) (hu ▸ hst)).symm
  cases i
  case ret n => exact corresponds_ret n rfl (fun _ => rfl) fun k => hcomplete (s.pop k) _ rfl
  case call nnn => exact corresponds_call nnn rfl (fun _ => rfl) fun k => hcomplete (s.push k _) _ rfl
  case ldVxK x => exact corresponds_ldVxK x (hkey x rfl) rfl fun b => hcomplete (s.setReg x b) _ rfl
  case rnd x nn =>
    refine .next ?_
    rw [setInp_inp, hrand x nn rfl]
    exact hcomplete (s.setReg x (s.inp.rand &&& nn)) _ rfl
  case skp x =>
    refine .next ?_
    rw [setInp_reg, pressed_setInp (hoor x (.inl rfl))]
    exact hcomplete s _ rfl
  case sknp x =>
    refine .next ?_
    rw [setInp_reg, pressed_setInp (hoor x (.inr rfl))]
    exact hcomplete s _ rfl
  case ldMemVx x => exact corresponds_ldMemVx x rfl rfl rfl fun m => hcomplete (s.setMem m) _ rfl
  case ldVxMem x => exact corresponds_ldVxMem x rfl rfl rfl fun v => hcomplete { s with v := v } _ rfl
  all_goals
    refine .next (hcomplete _ _ ?_)
    rfl

/-- Settles O45, instruction by instruction (`exec_setInp`). -/
theorem instructionsReadOnlyTheirInputs : Obligations.InstructionsReadOnlyTheirInputs := by
  unfold Obligations.InstructionsReadOnlyTheirInputs
  intro i s a h
  obtain ⟨t, t', ht, ht', rfl⟩ := exec_setInp h
  exact ⟨t, ht, ht'⟩

/-! ### The data registers (spec/10_state.md R24) -/

theorem setReg_finishReg {r x : Reg} (h : r ≠ x) (s : State) (b c : Byte) :
    (s.finishReg x c).setReg r b = (s.setReg r b).finishReg x c := by
  rw [State.finishReg, State.finishReg, setReg_comm s h]
  rfl

theorem setReg_finishRegFlag {r x : Reg} (h : r ≠ x) (hf : r ≠ flagReg) (s : State) (b c : Byte) (f : Bool) :
    (s.finishRegFlag x c f).setReg r b = (s.setReg r b).finishRegFlag x c f := by
  rw [State.finishRegFlag, State.finishRegFlag, State.setRegFlag, State.setRegFlag, setReg_comm s h, setReg_comm _ hf]
  rfl

/-- By the registers each handler reads and writes: none of them is `r`. -/
theorem exec_setReg {i : Instr} (s : State) {r : Reg} (hread : ¬ readsReg i r) (hwrite : ¬ writesReg i r) (b : Byte) :
    Corresponds (fun t t' => t.setReg r b = t') (exec i s) (exec i (s.setReg r b)) := by
  have hreg : ∀ x, r ≠ x → (s.setReg r b).reg x = s.reg x := fun x hx => by rw [reg_setReg, if_neg hx.symm]
  cases i <;> simp only [readsReg, writesReg, not_or, not_false_eq_true] at hread hwrite
  case ret n => exact corresponds_ret n rfl (fun _ => rfl) fun _ => rfl
  case call nnn => exact corresponds_call nnn rfl (fun _ => rfl) fun _ => rfl
  case ldVxK x => exact corresponds_ldVxK x rfl rfl fun c => setReg_finishReg hwrite s b c
  case drw x y n =>
    obtain ⟨hx, hy⟩ := hread
    have hdrawn : (s.setReg r b).drawn x y n.val = s.drawn x y n.val := by
      simp only [State.drawn, hreg x hx, hreg y hy, setReg_fb, setReg_mem, setReg_i]
    refine .next ?_
    rw [hdrawn]
    exact setReg_finishReg hwrite (s.setFb _) b _
  case ldB x =>
    have hbcd : (s.setReg r b).bcdMem x = s.bcdMem x := by
      simp only [State.bcdMem, hreg x hread, setReg_mem, setReg_i]
    refine .next ?_
    rw [hbcd]
    rfl
  case ldMemVx x =>
    have hdump : dumpRegs (s.setReg r b) s.i.toNat x.val = dumpRegs s s.i.toNat x.val :=
      dumpRegs_congr (setReg_mem s r b) _ fun k hk => hreg _ fun h => hread (by
        rw [h, Fin.lt_def, regNo, Fin.val_ofNat]
        omega)
    refine .next ?_
    rw [setReg_i, hdump]
    rfl
  case ldVxMem x =>
    refine .next ?_
    rw [setReg_i, loadRegs_setReg s _ x.isLt (Nat.lt_of_not_le hwrite)]
    rfl
  case seReg x y _ | sneReg x y _ =>
    obtain ⟨hx, hy⟩ := hread
    refine .next ?_
    rw [hreg x hx, hreg y hy]
    rfl
  case orReg x y | andReg x y | xorReg x y =>
    obtain ⟨hx, hy⟩ := hread
    refine .next ?_
    rw [hreg x hx, hreg y hy, setReg_finishReg hwrite]
  case addReg x y | subReg x y | subnReg x y =>
    obtain ⟨hx, hy⟩ := hread
    obtain ⟨-, hf⟩ := hwrite
    refine .next ?_
    rw [hreg x hx, hreg y hy, setReg_finishRegFlag hx hf]
  case shr x _ | shl x _ =>
    obtain ⟨-, hf⟩ := hwrite
    refine .next ?_
    rw [hreg x hread, setReg_finishRegFlag hread hf]
  case addImm x _ | ldReg _ x =>
    refine .next ?_
    rw [hreg x hread, setReg_finishReg hwrite]
  case ldImm | rnd | ldVxDt => exact .next (setReg_finishReg hwrite s b _)
  case seImm x _ | sneImm x _ | skp x | sknp x | ldDtVx x | ldStVx x | addI x | ldF x | jpV0 =>
    refine .next ?_
    rw [hreg _ hread]
    rfl
  all_goals exact .next rfl

/-! ### The timers -/

/-- DT and ST written together. -/
def State.setTimers (s : State) (b c : Byte) : State := { s with dt := b, st := c }

/-- With other timers, but the same DT where FX07 reads it, the outcome differs in the timers alone, and in each only if it differed before. -/
theorem exec_setTimers {i : Instr} (s : State) {b : Byte} (hdt : .dt ∈ usedParts i → b = s.dt) (c : Byte) :
    Corresponds (fun t t' => ∃ b' c', t.setTimers b' c' = t' ∧ (b = s.dt → b' = t.dt) ∧ (c = s.st → c' = t.st))
      (exec i s) (exec i (s.setTimers b c)) := by
  cases i
  case ret n => exact corresponds_ret n rfl (fun _ => ⟨b, c, rfl, id, id⟩) fun _ => ⟨_, _, rfl, (· ▸ rfl), (· ▸ rfl)⟩
  case call nnn => exact corresponds_call nnn rfl (fun _ => ⟨b, c, rfl, id, id⟩) fun _ => ⟨_, _, rfl, (· ▸ rfl), (· ▸ rfl)⟩
  case ldVxK x => exact corresponds_ldVxK x rfl ⟨b, c, rfl, id, id⟩ fun _ => ⟨_, _, rfl, (· ▸ rfl), (· ▸ rfl)⟩
  case ldMemVx x => exact corresponds_ldMemVx x rfl rfl rfl fun _ => ⟨_, _, rfl, (· ▸ rfl), (· ▸ rfl)⟩
  case ldVxMem x => exact corresponds_ldVxMem x rfl rfl rfl fun _ => ⟨_, _, rfl, (· ▸ rfl), (· ▸ rfl)⟩
  case ldVxDt x =>
    obtain rfl := hdt (by simp [usedParts])
    exact .next ⟨_, _, rfl, fun _ => rfl, (· ▸ rfl)⟩
  all_goals exact .next ⟨_, _, rfl, (· ▸ rfl), (· ▸ rfl)⟩

/-! ### The other parts -/

/-- `s` with every part that `i` does not use taken from `u`, the data registers, PC, the timers and the sampled record apart. -/
def graft (i : Instr) (s u : State) : State :=
  { u with
    v := s.v, pc := s.pc, dt := s.dt, st := s.st, inp := s.inp
    i := if .index ∈ usedParts i then s.i else u.i
    sp := if .stack ∈ usedParts i then s.sp else u.sp
    stack := if .stack ∈ usedParts i then s.stack else u.stack
    mem := if .memory ∈ usedParts i then s.mem else u.mem
    fb := if .screen ∈ usedParts i then s.fb else u.fb
    keys := if .keys ∈ usedParts i then s.keys else u.keys
    await := if .await ∈ usedParts i then s.await else u.await
    halted := if .faultLatch ∈ usedParts i then s.halted else u.halted
    fault := if .faultLatch ∈ usedParts i then s.fault else u.fault }

theorem graft_self (i : Instr) (s : State) : graft i s s = s := by simp [graft]

/-- Other contents of unused parts are found unchanged in the outcome. -/
theorem exec_graft (i : Instr) (s u : State) :
    Corresponds (fun t t' => graft i t u = t') (exec i s) (exec i (graft i s u)) := by
  cases i
  case ret n => exact corresponds_ret n rfl (fun _ => rfl) fun _ => rfl
  case call nnn => exact corresponds_call nnn rfl (fun _ => rfl) fun _ => rfl
  case ldVxK x => exact corresponds_ldVxK x rfl rfl fun _ => rfl
  case ldMemVx x => exact corresponds_ldMemVx x rfl rfl rfl fun _ => rfl
  case ldVxMem x => exact corresponds_ldVxMem x rfl rfl rfl fun _ => rfl
  all_goals exact .next rfl

/-- An update of unused parts commutes with the instruction. -/
theorem exec_update_unused {i : Instr} {s t : State} (ht : exec i s = .next t) {f : State → State}
    (hf : ∀ s', graft i s' (f s) = f (graft i s' s)) : exec i (f s) = .next (f t) := by
  have hgraft : ∀ u, exec i (graft i s u) = .next (graft i t u) := fun u => by
    obtain ⟨t', _, ht', hu, rfl⟩ := exec_graft i s u
    rwa [← Outcome.next.inj (ht'.symm.trans ht)]
  have hself : graft i t s = t := by
    have h := hgraft s
    rw [graft_self] at h
    exact Outcome.next.inj (h.symm.trans ht)
  simpa only [hf, graft_self, hself] using hgraft (f s)

/-- PC is used by every instruction but the two jumps, which overwrite it. -/
theorem exec_setPc {i : Instr} {s t : State} (ht : exec i s = .next t) (h : .pc ∉ usedParts i) (p : Addr) :
    exec i { s with pc := p } = .next t := by
  cases i <;> simp only [usedParts, List.mem_cons, true_or, not_true] at h
  case jp | jpV0 => exact ht

/-- Settles O46: the data registers by `exec_setReg`, PC by `exec_setPc`, the timers by `exec_setTimers`, and every other part by
`exec_update_unused`, as its update commutes with `graft`. -/
theorem instructionsReadOnlyTheirParts : Obligations.InstructionsReadOnlyTheirParts := by
  unfold Obligations.InstructionsReadOnlyTheirParts
  intro i s
  obtain ⟨t, ht, -⟩ := exec_ends i s
  refine ⟨t, ht, fun r b hread hwrite => ?_, fun h a => ?_, exec_setPc ht, fun h p st => ?_, fun h b => ?_, fun h b => ?_,
    fun h m => ?_, fun h fb => ?_, fun h k => ?_, fun h w => ?_, fun h hl fl => ?_, fun h e => ?_, fun l n => ?_⟩
  · obtain ⟨u, u', hu, hu', rfl⟩ := exec_setReg s hread hwrite b
    cases hu.symm.trans ht
    exact hu'
  · exact exec_update_unused ht (f := (·.setI a)) fun s' => by simp [graft, State.setI, h]
  · exact exec_update_unused ht (f := fun s => { s with sp := p, stack := st }) fun s' => by simp [graft, h]
  · obtain ⟨u, u', hu, hu', b', c', rfl, -, hst⟩ := exec_setTimers s (b := b) (absurd · h) s.st
    cases hu.symm.trans ht
    cases hst rfl
    exact ⟨_, hu', setDt_keeps t b'⟩
  · obtain ⟨u, u', hu, hu', b', c', rfl, hdt, -⟩ := exec_setTimers (i := i) s (fun _ => rfl) b
    cases hu.symm.trans ht
    cases hdt rfl
    exact ⟨_, hu', setSt_keeps t c'⟩
  · exact exec_update_unused ht (f := (·.setMem m)) fun s' => by simp [graft, State.setMem, h]
  · exact exec_update_unused ht (f := (·.setFb fb)) fun s' => by simp [graft, State.setFb, h]
  · exact exec_update_unused ht (f := fun s => { s with keys := k }) fun s' => by simp [graft, h]
  · exact exec_update_unused ht (f := fun s => { s with await := w }) fun s' => by simp [graft, h]
  · exact exec_update_unused ht (f := fun s => { s with halted := hl, fault := fl }) fun s' => by simp [graft, h]
  · exact exec_update_unused ht (f := fun s => { s with loadError := e }) fun s' => by simp [graft]
  · exact exec_update_unused ht (f := fun s => { s with inputs := l, draws := n }) fun s' => by simp [graft]

end Sys2Proof.Machine
end

section
/-! SUPPORT. The obligations on the input records (spec/40_pipeline.md R101, spec/44_keypad.md R184): each step takes one, and a key event that
no FX0A reads has no effect on the step or after it. -/

namespace Sys2Proof.Machine

/-- No handler touches the record sampled or the records to come. -/
theorem exec_keeps_environment (i : Instr) (s : State) : ∃ t, exec i s = .next t ∧ Part.environment.same s t := by
  obtain ⟨t, ht, hkeeps⟩ := exec_keepsAllBut i s
  exact ⟨t, ht, hkeeps .environment (by cases i <;> simp [mayChange])⟩

theorem suspendedStep_keeps_environment (r : Reg) (s : State) : Part.environment.same s (suspendedStep r s) := by
  rcases suspendedStep_cases r s with hstep | ⟨k, hstep⟩ <;> rw [hstep] <;> exact ⟨rfl, rfl, rfl⟩

/-- After a step the records are as the sampling at its start left them. -/
theorem step_environment (s : State) : ∃ t, step s = .next t ∧ Part.environment.same s.sample t := by
  obtain ⟨t, hstep, hcase⟩ := step_cases s
  refine ⟨t, hstep, ?_⟩
  rcases hcase with ⟨-, rfl⟩ | ⟨-, r, -, rfl⟩ | ⟨-, -, hexec, -⟩
  · exact ⟨rfl, rfl, rfl⟩
  · exact suspendedStep_keeps_environment r s.sample.latchKeys
  · obtain ⟨u, hu, hsame⟩ := exec_keeps_environment (decode (fetchWord s)) s.sample.latchKeys
    cases hu.symm.trans hexec
    exact hsame

/-- Settles O50: the sampling takes the one record (`sample_spec`), and nothing after it touches the records. -/
theorem everyStepTakesOneInputRecord : Obligations.EveryStepTakesOneInputRecord := by
  unfold Obligations.EveryStepTakesOneInputRecord
  intro s
  obtain ⟨t, hstep, hinp, hinputs, hdraws⟩ := step_environment s
  exact ⟨t, hstep, by rw [hinp, sample_spec], by rw [hinputs, sample_spec], by rw [hdraws, sample_spec]⟩

/-- An instruction other than FX0A reads no key event. -/
theorem sameInputs_keyEvent {i : Instr} (h : ∀ x, i ≠ .ldVxK x) (a : StepIn) (e : Option Key) :
    sameInputs i { a with keyEvent := e } a :=
  ⟨rfl, rfl, fun _ _ _ => rfl, fun x hx => absurd hx (h x), fun _ _ => rfl⟩

/-- With another key event, a step of a halted core, or of a running one that stands at no FX0A, answers the same but for the record. -/
theorem stepWith_keyEvent {s : State} (a : StepIn) (e : Option Key)
    (h : s.halted = true ∨ (s.await = none ∧ ∀ x, decode (fetchWord s) ≠ .ldVxK x)) :
    ∃ t, stepWith a s = .next t ∧ stepWith { a with keyEvent := e } s = .next (t.setInp { a with keyEvent := e }) := by
  cases hhalted : s.halted with
  | true => exact ⟨_, stepWith_halted a hhalted, stepWith_halted _ hhalted⟩
  | false =>
    obtain ⟨hawait, hi⟩ := h.resolve_left (by simp [hhalted])
    obtain ⟨t, t', ht, ht', rfl⟩ := exec_setInp (s := (s.setInp a).latchKeys) (sameInputs_keyEvent hi a e)
    exact ⟨t, (stepWith_running a hhalted hawait).trans ht, (stepWith_running _ hhalted hawait).trans ht'⟩

/-- A load keeps the sampled record, which no step reads, and takes nothing else from it. -/
theorem load_setInp (image : List Byte) (s : State) (b : StepIn) (f : Font) :
    (load image (s.setInp b) f).1 = (load image s f).1.setInp b := by
  unfold load
  split <;> rfl

/-- Settles O51: the event has no effect on the step (`stepWith_keyEvent`), the record leaves the list, and the next step samples its own
in place of it, after a load too. -/
theorem unusedKeyEventsAreNotQueued : Obligations.UnusedKeyEventsAreNotQueued := by
  unfold Obligations.UnusedKeyEventsAreNotQueued
  intro s a e h
  obtain ⟨t, ht, ht'⟩ := stepWith_keyEvent a e h
  obtain ⟨u, hu, -, hinputs, -⟩ := step_environment { s with inputs := a :: s.inputs }
  cases hu.symm.trans ht
  exact ⟨t, ht, ht', hinputs, step_setInp t, fun b image f => by rw [load_setInp, step_setInp]⟩

end Sys2Proof.Machine
end

section
/-! SUPPORT. The obligation on the jump by V0, and those on two instructions in turn: CALL and RET, FX55 and FX65, DXYN twice. Each pair is
put together from what its two instructions are known to do. -/

namespace Sys2Proof.Machine

/-- Settles O22: the handler only sets PC, to a sum that wraps at 65536. -/
theorem jumpV0AddsOffset : Obligations.JumpV0AddsOffset := by
  unfold Obligations.JumpV0AddsOffset
  intro s nnn
  refine ⟨decode_jpV0 nnn, goto_endsDone rfl ?_⟩
  rw [BitVec.toNat_add, toNat_zext16_eq, toNat_byteTo16]

/-- Settles O20: the CALL pushes PC + 2 one entry up (`callPushesReturnAddress`), and the RET pops that entry (`retPopsReturnAddress`). -/
theorem callThenRetRoundTrip : Obligations.CallThenRetRoundTrip := by
  unfold Obligations.CallThenRetRoundTrip
  intro s nnn n hsp
  obtain ⟨-, -, hcall⟩ := callPushesReturnAddress s nnn
  obtain ⟨t, ⟨hexec, -⟩, htsp, hpushed, -⟩ := hcall hsp
  refine ⟨t, hexec, fun t' hsp' hentry' => ?_⟩
  obtain ⟨-, -, hret⟩ := retPopsReturnAddress t' n
  obtain ⟨k, -, hk⟩ := exists_spPush hsp
  have hsome : t.sp = some k := spValue_inj (htsp.trans hk.symm)
  obtain ⟨u, ⟨hexec', hpc, -⟩, husp, -⟩ := hret k (hsp'.trans hsome)
  refine ⟨u, hexec', ?_, spValue_inj (by omega)⟩
  rw [hpc, hentry', hpushed k hk, Nat.mod_mod]

/-- Settles O41: the dump left V0 to V(X − 1) at I up and the byte at I + X as it was (`dumpStoresRegistersBelowX`), and the load
reads these (`loadFillsRegistersThroughX`). -/
theorem dumpThenLoadIsAsymmetric : Obligations.DumpThenLoadIsAsymmetric := by
  unfold Obligations.DumpThenLoadIsAsymmetric
  intro s x hwf
  obtain ⟨-, t, ⟨hexec, -, -, -, hkeeps⟩, hstored, hother⟩ := dumpStoresRegistersBelowX s x hwf
  have hindex : t.i = s.i := hkeeps .index (by decide)
  refine ⟨t, hexec, fun t' hi hmem => ?_⟩
  obtain ⟨-, u, ⟨hexec', -⟩, hloaded⟩ := loadFillsRegistersThroughX t' x
  refine ⟨u, hexec', fun r hr => ?_, ?_⟩
  · rw [hloaded, if_pos (le_of_lt hr), hmem, hi, hindex, hstored r hr]
  · rw [hloaded, if_pos le_rfl, hmem, hi, hindex]
    exact hother _ fun k hk => by simp only [effAddr]; omega

/-! ### Two draws of one sprite (spec/43_display.md R176) -/

theorem spriteCovers_congr {s t : State} {x y x' y' : Reg} (hi : t.i = s.i) (hmem : ∀ a, t.mem.read a = s.mem.read a)
    (hx : t.reg x' = s.reg x) (hy : t.reg y' = s.reg y) (n px py : Nat) :
    SpriteCovers t x' y' n px py ↔ SpriteCovers s x y n px py := by
  simp only [SpriteCovers, hi, hmem, hx, hy]

/-- Settles O33: each draw XORs the sprite into the screen and hits on a set pixel under it (`drawXorsSpriteAndSetsCollision`); under the
sprite, the pixels that the second draw finds set are those that were unset before the first. -/
theorem drawTwiceRestoresScreen : Obligations.DrawTwiceRestoresScreen := by
  unfold Obligations.DrawTwiceRestoresScreen
  intro s x y n
  obtain ⟨-, t, ⟨hexec, -⟩, -, hpixel, -, hhit⟩ := drawXorsSpriteAndSetsCollision s x y n
  refine ⟨t, hexec, fun hset ⟨px, py, hcov⟩ => ?_, fun t' x' y' hfb hi hmem hx hy => ?_⟩
  · obtain ⟨hpx, hpy⟩ := hcov.on_grid
    exact hhit.mpr ⟨px, py, hpx, hpy, hset px py hpx hpy hcov, hcov⟩
  · obtain ⟨-, u, ⟨hexec', -⟩, -, hpixel', hbit, hhit'⟩ := drawXorsSpriteAndSetsCollision t' x' y' n
    simp only [spriteCovers_congr hi hmem hx hy, hfb] at hpixel' hhit'
    refine ⟨u, hexec', fun px py hpx hpy => ?_, hhit'.trans ?_, hbit.resolve_right⟩
    · rw [Bool.eq_iff_iff, hpixel' px py hpx hpy, hpixel px py hpx hpy]
      tauto
    · have hunder : ∀ px py, SpriteCovers s x y n.val px py → (t.fb.pixel px py = true ↔ s.fb.pixel px py = false) :=
        fun px py hcov => by
          rw [hpixel px py hcov.on_grid.1 hcov.on_grid.2]
          simp [hcov]
      constructor
      · rintro ⟨px, py, hpx, hpy, hset, hcov⟩
        exact ⟨px, py, hpx, hpy, (hunder px py hcov).mp hset, hcov⟩
      · rintro ⟨px, py, hpx, hpy, hunset, hcov⟩
        exact ⟨px, py, hpx, hpy, (hunder px py hcov).mpr hunset, hcov⟩

end Sys2Proof.Machine
end

section
/-! SUPPORT. The obligation on the model's form of memory: canonical memories that read the same are the same. -/

namespace Sys2Proof.Machine

theorem Memory.wfFrom_cons {lo k : Nat} {b : Byte} {rest : Memory} :
    Memory.wfFrom lo ((k, b) :: rest) = true ↔
      lo ≤ k ∧ k < 4096 ∧ b ≠ resetByte k ∧ Memory.wfFrom (k + 1) rest = true := by
  simp [Memory.wfFrom, and_assoc]

theorem Memory.get_cons (k : Nat) (b : Byte) (rest : Memory) (a : Nat) :
    Memory.get ((k, b) :: rest) a = if k = a then b else Memory.get rest a := rfl

/-- A memory that is canonical from its own first cell up. -/
theorem Memory.wfFrom_first {lo k : Nat} {b : Byte} {rest : Memory} (h : Memory.wfFrom lo ((k, b) :: rest) = true) :
    Memory.wfFrom k ((k, b) :: rest) = true := by
  obtain ⟨-, htail⟩ := Memory.wfFrom_cons.mp h
  exact Memory.wfFrom_cons.mpr ⟨le_rfl, htail⟩

/-- The first listed cell differs from the reset content, so another canonical memory that reads the same there does not begin above it. -/
theorem Memory.le_first_of_get_eq {lo lo' k : Nat} {b : Byte} {rest m' : Memory}
    (h : Memory.wfFrom lo ((k, b) :: rest) = true) (h' : Memory.wfFrom lo' m' = true)
    (hget : Memory.get ((k, b) :: rest) k = Memory.get m' k) : lo' ≤ k := by
  obtain ⟨-, -, hb, -⟩ := Memory.wfFrom_cons.mp h
  by_contra hlt
  rw [Memory.get_below h' (by omega), Memory.get_cons, if_pos rfl] at hget
  exact hb hget

/-- Cell by cell: two canonical memories that read the same begin with the same cell, and then the rests read the same. -/
theorem Memory.eq_of_get_eq {lo : Nat} {m m' : Memory} (h : Memory.wfFrom lo m = true) (h' : Memory.wfFrom lo m' = true)
    (hget : ∀ a, a < 4096 → Memory.get m a = Memory.get m' a) : m = m' := by
  induction m generalizing lo m' with
  | nil =>
    cases m' with
    | nil => rfl
    | cons e' rest' =>
      obtain ⟨k', b'⟩ := e'
      obtain ⟨-, hlt', -, -⟩ := Memory.wfFrom_cons.mp h'
      have hle : k' + 1 ≤ k' := Memory.le_first_of_get_eq h' (m' := []) rfl (hget k' hlt').symm
      omega
  | cons e rest ih =>
    obtain ⟨k, b⟩ := e
    obtain ⟨-, hlt, -, hrest⟩ := Memory.wfFrom_cons.mp h
    cases m' with
    | nil =>
      have hle : k + 1 ≤ k := Memory.le_first_of_get_eq h (m' := []) rfl (hget k hlt)
      omega
    | cons e' rest' =>
      obtain ⟨k', b'⟩ := e'
      obtain ⟨-, hlt', -, hrest'⟩ := Memory.wfFrom_cons.mp h'
      have hle := Memory.le_first_of_get_eq h (Memory.wfFrom_first h') (hget k hlt)
      have hle' := Memory.le_first_of_get_eq h' (Memory.wfFrom_first h) (hget k' hlt').symm
      obtain rfl : k = k' := Nat.le_antisymm hle' hle
      have hb : b = b' := by simpa [Memory.get_cons] using hget k hlt
      rw [hb, ih hrest hrest' fun a ha => ?_]
      by_cases hak : a ≤ k
      · rw [Memory.get_below hrest (by omega), Memory.get_below hrest' (by omega)]
      · have hne : k ≠ a := by omega
        simpa only [Memory.get_cons, if_neg hne] using hget a ha

/-- Settles O47: below 4096 an address is its own effective address, so the two memories have the same cells. -/
theorem canonicalMemoryIsUnique : Obligations.CanonicalMemoryIsUnique := by
  unfold Obligations.CanonicalMemoryIsUnique
  intro m m' h h' hread
  refine Memory.eq_of_get_eq h h' fun a ha => ?_
  simpa only [Memory.read, effAddr, Nat.mod_eq_of_lt ha] using hread a ha

end Sys2Proof.Machine
end
